-- ==== Sys2Proof/Machine/Params.lean ====
section
/-! DEFINITION. The numeric parameters of the block (R6), one named constant each (D16): the widths of Word.lean, the
layouts and the step are written with these names. They unfold for `simp` and at reducible transparency. -/

namespace Sys2Proof.Machine

/-- `WORD_BITS` (R6, R70). -/
@[simp] abbrev wordBits : Nat := 32

/-- `SYMBOLS_PER_WORD` (R6, R52). -/
@[simp] abbrev symbolsPerWord : Nat := 4

/-- `SYMBOL_BITS` (R6, R71). -/
@[simp] abbrev symbolBits : Nat := 8

/-- `PAYLOAD_BITS` (R6): what one symbol appends. -/
@[simp] abbrev payloadBits : Nat := 6

/-- `CTRL_BITS` (R6): the two lowest bits of a symbol. -/
@[simp] abbrev ctrlBits : Nat := 2

/-- The control bit that ends a packet (`CTRL_BITS` of R6, R71). -/
@[simp] abbrev eopBit : Nat := 0

/-- The control bit that ends a message (`CTRL_BITS` of R6, R71). -/
@[simp] abbrev eomBit : Nat := 1

/-- `PACKET_CAPACITY` (R6): the buffer holds 120 bits. -/
@[simp] abbrev packetCapacity : Nat := 120

/-- `MAX_APPENDS` (R6): the most symbols one packet holds. -/
@[simp] abbrev maxAppends : Nat := 20

/-- `ADDR_BITS` (R6, R21). -/
@[simp] abbrev addrBits : Nat := 32

/-- `ICOUNT_BITS` (R6, R28). -/
@[simp] abbrev icountBits : Nat := 16

/-- `TS_BITS` (R6, R28). -/
@[simp] abbrev tsBits : Nat := 64

/-- `TYPE_BITS` (R6, R77). -/
@[simp] abbrev typeBits : Nat := 6

/-- The widest field there is, a timestamp (R102, R108). -/
@[simp] abbrev rawBits : Nat := tsBits

/-- The width of a branch code (R168). -/
@[simp] abbrev branchBits : Nat := 1

/-- The width of `direct_continue` on the wire (R168). -/
@[simp] abbrev directBits : Nat := 1

/-- The width of a Correction's event code (R168). -/
@[simp] abbrev eventBits : Nat := 6

/-- `TYPE_IB` (R6, R77). -/
def typeIB : BitVec typeBits := 4#typeBits

/-- `TYPE_IBS` (R6, R77). -/
def typeIBS : BitVec typeBits := 12#typeBits

/-- `TYPE_SYNC` (R6, R77). -/
def typeSYNC : BitVec typeBits := 9#typeBits

/-- `TYPE_CORR` (R6, R77). -/
def typeCORR : BitVec typeBits := 33#typeBits

/-- `EVENT_CODE_CORR` (R6, R80). -/
def eventCodeCORR : BitVec eventBits := 0xa#eventBits

/-- Where the count of `IB.P0` starts (R76). -/
@[simp] abbrev ibCountStart : Nat := typeBits + branchBits

/-- Where the count of `IBS.P0` starts (R76). -/
@[simp] abbrev ibsCountStart : Nat := typeBits + directBits + branchBits

/-- Where the count of `SYNC.P0` starts (R76). -/
@[simp] abbrev syncCountStart : Nat := typeBits + directBits

/-- Where the count of `CORR.P0` starts (R76). -/
@[simp] abbrev corrCountStart : Nat := typeBits + eventBits

/-- The fewest symbols of a packet 0 that can decode (R186). -/
@[simp] abbrev minPacketZeroLen : Nat := 2

/-- The fewest symbols of a packet (R73), enough for every later packet (R186). -/
@[simp] abbrev minPacketLen : Nat := 1

end Sys2Proof.Machine
end

