-- ==== Sys2Proof/Word.lean ====
section
/-! DEFINITION. The unsigned types of the spec (rule R9: `uN` is an unsigned N-bit value), and one type for each
width that R6 names. -/

namespace Sys2Proof

open Sys2Proof.Machine

/-- An unsigned 8-bit value (R9): a counter, a scratch slot, `direct_continue`. -/
abbrev U8 := BitVec 8

/-- What a field extraction returns, zero-extended to the widest field (R100, R102). -/
abbrev Raw := BitVec rawBits

/-- An input word (R70, `WORD_BITS`). -/
abbrev Word := BitVec wordBits

/-- One symbol of the wire (R71, `SYMBOL_BITS`). -/
abbrev Symbol := BitVec symbolBits

/-- The payload bits of a symbol (R71, `PAYLOAD_BITS`). -/
abbrev Payload := BitVec payloadBits

/-- The control bits of a symbol (R71, `CTRL_BITS`). -/
abbrev Control := BitVec ctrlBits

/-- The packet bit-buffer: bit `i` is the `i`-th bit appended (R8, R23, `PACKET_CAPACITY`). -/
abbrev PacketBits := BitVec packetCapacity

/-- An address of the traced processor (R21, `ADDR_BITS`). -/
abbrev Address := BitVec addrBits

/-- An instruction count (R28, `ICOUNT_BITS`). -/
abbrev InstructionCount := BitVec icountBits

/-- A timestamp (R28, `TS_BITS`). -/
abbrev Timestamp := BitVec tsBits

end Sys2Proof
end

