-- ==== Sys2Proof/Config.lean ====
section
/-! DEFINITION. The enumerations of the spec (R26, R27) and its two open parameters (R6: `RESET_KIND` and
`BRANCH_CODE_MAP`). The parameters are plain data that State carries, so that the whole model takes them as an
argument; their default values stand in Machine/Tables.lean. -/

namespace Sys2Proof

/-- `Kind` of R26: the two control states of the Packet Assembler, then the four message kinds. -/
inductive Kind where
  | ignoring
  | undetermined
  | indirectBranch
  | indirectBranchSync
  | sync
  | correction
deriving DecidableEq, Repr

/-- `BranchKind` of R27. The last three are listed by the source and reached by no rule under the default map (I4). -/
inductive BranchKind where
  | undefined
  | normal
  | nonOcdException
  | loopback
  | ocdReturn
  | ocdException
deriving DecidableEq, Repr

/-- The values `RESET_KIND` may take (R6, R261). -/
inductive ResetKind where
  | ignoring
  | undetermined
deriving DecidableEq, Repr

/-- The open parameters of R6. `branchCode0` and `branchCode1` are the two entries of `BRANCH_CODE_MAP`. -/
structure Config where
  resetKind : ResetKind
  branchCode0 : BranchKind
  branchCode1 : BranchKind
deriving DecidableEq, Repr

end Sys2Proof
end

