-- ==== Sys2Proof/Machine/Tables.lean ====
section
/-! DEFINITION. The fixed configuration of the block (R6, R7): `MAX_PACKETS`, `PRIORITY`, the default values of the
open parameters, the field descriptors (R75) and the table registry (R168). The numeric parameters of R6 are in
Machine/Params.lean. -/

namespace Sys2Proof.Machine

/-- `MAX_PACKETS(K)` (R168); a control state has no packets. -/
def maxPackets : Kind → Nat
  | .ignoring => 0
  | .undetermined => 0
  | .indirectBranch => 3
  | .indirectBranchSync => 3
  | .sync => 3
  | .correction => 2

/-- `PRIORITY` (R167): the order in which the candidates of packet 0 are tried. -/
def priority : List Kind := [.indirectBranch, .indirectBranchSync, .sync, .correction]

/-- The defaults of the open parameters (R6; D2, D3): DESIGN CHOICE of the spec, logs 5 and 6. -/
def defaultConfig : Config where
  resetKind := .undetermined
  branchCode0 := .normal
  branchCode1 := .nonOcdException

/-- `RESET_KIND` as a value of `message.kind` (R26, R261). -/
def resetKindOf (cfg : Config) : Kind :=
  match cfg.resetKind with
  | .ignoring => .ignoring
  | .undetermined => .undetermined

/-- `BRANCH_CODE_MAP` (R106, D3), on the one bit that a branch code has. -/
def branchCodeMap (cfg : Config) (code : BitVec branchBits) : BranchKind :=
  if code = 0#1 then cfg.branchCode0 else cfg.branchCode1

/-- The destination slots of R107: three scratch slots (R30), then four message fields (R25). -/
inductive Slot where
  | typeCode
  | branchCode
  | eventCode
  | directContinue
  | instructionCount
  | address
  | timestamp
deriving DecidableEq, Repr

/-- The validators of R106, and no others. -/
inductive Validator where
  | type (k : Kind)
  | branch
  | event
deriving DecidableEq, Repr

/-- A field descriptor (R75). `srcBits = 0` marks the terminal field. -/
structure FieldDesc where
  srcBits : Nat
  dstBytes : Nat
  slot : Slot
  validator : Option Validator
deriving DecidableEq, Repr

/-- The type field of a packet 0: 6 bits, accepted by `V_TYPE(k)` alone (R106, R168). -/
def typeField (k : Kind) : FieldDesc := ⟨typeBits, 1, .typeCode, some (.type k)⟩

/-- The 1-bit branch code (R168). -/
def branchField : FieldDesc := ⟨branchBits, 1, .branchCode, some .branch⟩

/-- The 1-bit `direct_continue` (R168). -/
def directField : FieldDesc := ⟨directBits, 1, .directContinue, none⟩

/-- The 6-bit event code of a Correction (R168). -/
def eventField : FieldDesc := ⟨eventBits, 1, .eventCode, some .event⟩

/-- The terminal `instruction_count`, 16-bit destination (R108, R168). -/
def countField : FieldDesc := ⟨0, icountBits / 8, .instructionCount, none⟩

/-- The terminal `address`, 32-bit destination (R108, R168). -/
def addressField : FieldDesc := ⟨0, addrBits / 8, .address, none⟩

/-- The terminal `timestamp`, 64-bit destination (R108, R168). -/
def timestampField : FieldDesc := ⟨0, tsBits / 8, .timestamp, none⟩

/-- `TABLE(K, i)` (R168). The dispatcher asks only for `i < MAX_PACKETS(K)` (R160); elsewhere there is no table,
written here as the empty one. -/
def table : Kind → Nat → List FieldDesc
  | .indirectBranch, 0 => [typeField .indirectBranch, branchField, countField]
  | .indirectBranch, 1 => [addressField]
  | .indirectBranch, 2 => [timestampField]
  | .indirectBranchSync, 0 => [typeField .indirectBranchSync, directField, branchField, countField]
  | .indirectBranchSync, 1 => [addressField]
  | .indirectBranchSync, 2 => [timestampField]
  | .sync, 0 => [typeField .sync, directField, countField]
  | .sync, 1 => [addressField]
  | .sync, 2 => [timestampField]
  | .correction, 0 => [typeField .correction, eventField, countField]
  | .correction, 1 => [timestampField]
  | _, _ => []

/-- The raw type code that `V_TYPE(k)` accepts (R77, R106); a control state has none. -/
def typeCodeOf : Kind → Option (BitVec typeBits)
  | .ignoring => none
  | .undetermined => none
  | .indirectBranch => some typeIB
  | .indirectBranchSync => some typeIBS
  | .sync => some typeSYNC
  | .correction => some typeCORR

/-- R75's form of a table: the terminal field is the last one and the only one, and every other field fits its
destination (D18). -/
def tableWellFormed : List FieldDesc → Bool
  | [] => false
  | [f] => decide (f.srcBits = 0)
  | f :: fs => decide (f.srcBits ≠ 0) && decide (f.srcBits ≤ 8 * f.dstBytes) && tableWellFormed fs

end Sys2Proof.Machine
end

