-- ==== Sys2Proof/Syntax.lean ====
section
/-! DEFINITION. The instructions: one constructor per row of spec/opcode_table.json, over the three layers of the
wire (a word, a symbol, a packet), and the code of each layer as the wire carries it. -/

namespace Sys2Proof

open Sys2Proof.Machine

/-- What the wire carries, by layer: a 32-bit word (R70), one 8-bit symbol (R71), or the payloads of one packet in
stream order (R73). The input port carries words only (R51); the two finer units are the model's own
(DESIGN CHOICE, log 2). -/
inductive Code where
  | word (w : Word)
  | symbol (b : Symbol)
  | packet (payloads : List Payload)
deriving DecidableEq, Repr

/-- The instructions of the opcode table. A packet row carries its length `len` in symbols (R73) and its fields; its
last operand is ALL the bits of the packet from the terminal field's first bit on (R76), those above the terminal
field's destination width too, which the hardware drops (R103). Log 20. -/
inductive Instr where
  /-- `WORD` (R70, R130). -/
  | word (symbol0 symbol1 symbol2 symbol3 : Symbol)
  /-- `SYM.DATA`, control bits 00 (R132). -/
  | symData (payload : Payload)
  /-- `SYM.EOP`, control bits 01 (R133). -/
  | symEop (payload : Payload)
  /-- `SYM.EOM`, control bits 10 (R134). -/
  | symEom (payload : Payload)
  /-- `SYM.EOPM`, control bits 11 (R135). -/
  | symEopm (payload : Payload)
  /-- `IB.P0`: type 4, branch_code, instruction_count from bit 7 (R170). -/
  | ibP0 (len : Nat) (branchCode : BitVec branchBits) (count : BitVec (packetCapacity - ibCountStart))
  /-- `IB.P1`: address diff from bit 0 (R171). -/
  | ibP1 (len : Nat) (address : PacketBits)
  /-- `IB.P2`: timestamp from bit 0 (R172). -/
  | ibP2 (len : Nat) (timestamp : PacketBits)
  /-- `IBS.P0`: type 12, direct_continue, branch_code, instruction_count from bit 8 (R173). -/
  | ibsP0 (len : Nat) (directContinue : BitVec directBits) (branchCode : BitVec branchBits)
    (count : BitVec (packetCapacity - ibsCountStart))
  /-- `IBS.P1`: absolute address from bit 0 (R174). -/
  | ibsP1 (len : Nat) (address : PacketBits)
  /-- `IBS.P2`: timestamp from bit 0 (R175). -/
  | ibsP2 (len : Nat) (timestamp : PacketBits)
  /-- `SYNC.P0`: type 9, direct_continue, instruction_count from bit 7 (R176). -/
  | syncP0 (len : Nat) (directContinue : BitVec directBits) (count : BitVec (packetCapacity - syncCountStart))
  /-- `SYNC.P1`: absolute address from bit 0 (R177). -/
  | syncP1 (len : Nat) (address : PacketBits)
  /-- `SYNC.P2`: timestamp from bit 0 (R178). -/
  | syncP2 (len : Nat) (timestamp : PacketBits)
  /-- `CORR.P0`: type 33, event code 0xa, instruction_count from bit 12 (R179). -/
  | corrP0 (len : Nat) (count : BitVec (packetCapacity - corrCountStart))
  /-- `CORR.P1`: timestamp from bit 0 (R180). -/
  | corrP1 (len : Nat) (timestamp : PacketBits)
deriving DecidableEq, Repr

end Sys2Proof
end

