-- ==== Sys2Proof/Machine/Operands.lean ====
section
/-! DEFINITION. The operand forms of the wire: the symbols of a word (R52, R70), the payload and control bits of a
symbol (R53, R71), the payloads of a packet as a bit string (R54), and the packet as the symbols that carry it
(R73, R83). -/

namespace Sys2Proof.Machine

/-- Symbol `k` of a word, `w[8k+7 : 8k]` (R52). -/
def wordSymbol (w : Word) (k : Nat) : Symbol := w.extractLsb' (symbolBits * k) symbolBits

/-- The four symbols of a word in the order they are processed, lowest byte first (R52). -/
def wordSymbols (w : Word) : List Symbol := (List.range symbolsPerWord).map (wordSymbol w)

/-- The word that holds four symbols (R70). -/
def wordOfSymbols (s0 s1 s2 s3 : Symbol) : Word := s3 ++ s2 ++ s1 ++ s0

/-- The payload of a symbol, `s[7:2]` (R71). -/
def symPayload (b : Symbol) : Payload := b.extractLsb' ctrlBits payloadBits

/-- The control bits of a symbol, `s[1:0]` (R71): bit 0 is EOP, bit 1 is EOM. -/
def symControl (b : Symbol) : Control := b.extractLsb' 0 ctrlBits

/-- EOP, end of packet: bit 0 (R71). -/
def symEop (b : Symbol) : Bool := b.getLsbD eopBit

/-- EOM, end of message: bit 1 (R71). -/
def symEom (b : Symbol) : Bool := b.getLsbD eomBit

/-- `S(p, c)`, the symbol with payload `p` and control `c` (R12). -/
def symbolOf (p : Payload) (c : Control) : Symbol := p ++ c

/-- The bit string of a packet's payloads: payload `n` fills bits `6n .. 6n+5` (R54). -/
def payloadsToBits : List Payload → PacketBits
  | [] => 0#packetCapacity
  | p :: ps => (payloadsToBits ps <<< payloadBits) ||| p.setWidth packetCapacity

/-- A bit string cut into `len` payloads, lowest bits first (R83). -/
def bitsToPayloads : Nat → PacketBits → List Payload
  | 0, _ => []
  | len + 1, b => b.setWidth payloadBits :: bitsToPayloads len (b >>> payloadBits)

/-- The symbols that carry a packet: EOP on the last and on no other (R73). `last` is the control of the last symbol,
`0b01` where the message goes on and `0b11` where it ends. -/
def packetSymbols (last : Control) : List Payload → List Symbol
  | [] => []
  | [p] => [symbolOf p last]
  | p :: q :: ps => symbolOf p 0b00#ctrlBits :: packetSymbols last (q :: ps)

/-- The symbols of a message: its packets in order, the last one ended by EOP and EOM (R74). -/
def messageSymbols : List (List Payload) → List Symbol
  | [] => []
  | [ps] => packetSymbols 0b11#ctrlBits ps
  | ps :: qs :: rest => packetSymbols 0b01#ctrlBits ps ++ messageSymbols (qs :: rest)

/-- The symbols a code puts on the wire, in stream order; a packet on its own leaves its message open (log 18). -/
def codeSymbols : Code → List Symbol
  | .word w => wordSymbols w
  | .symbol b => [b]
  | .packet payloads => packetSymbols 0b01#ctrlBits payloads

/-- `b[hi-1 : lo]`, the slice notation of R8. -/
def bitSlice (b : PacketBits) (lo hi : Nat) : BitVec (hi - lo) := b.extractLsb' lo (hi - lo)

end Sys2Proof.Machine
end

