-- ==== Sys2Proof/WellFormed.lean ====
section
/-! DEFINITION. Which instructions the encoding admits: every word and symbol (R70, R71); a packet of 1 to 20
symbols (R73), of at least 2 where it is a packet 0 (R76, R186), with no bit at or above its length. -/

namespace Sys2Proof

open Sys2Proof.Machine

/-- A packet of `len` symbols, at least `least` of them, whose terminal field starts at bit `lo` and holds `tail`. -/
def tailFits (least len lo : Nat) {k : Nat} (tail : BitVec k) : Bool :=
  decide (least ≤ len) && decide (len ≤ maxAppends) && decide (tail.toNat < 2 ^ (payloadBits * len - lo))

/-- The operands an encoding admits (R73, R76, R186), as a test. -/
def Instr.wellFormed : Instr → Bool
  | .word _ _ _ _ => true
  | .symData _ => true
  | .symEop _ => true
  | .symEom _ => true
  | .symEopm _ => true
  | .ibP0 len _ count => tailFits minPacketZeroLen len ibCountStart count
  | .ibP1 len address => tailFits minPacketLen len 0 address
  | .ibP2 len timestamp => tailFits minPacketLen len 0 timestamp
  | .ibsP0 len _ _ count => tailFits minPacketZeroLen len ibsCountStart count
  | .ibsP1 len address => tailFits minPacketLen len 0 address
  | .ibsP2 len timestamp => tailFits minPacketLen len 0 timestamp
  | .syncP0 len _ count => tailFits minPacketZeroLen len syncCountStart count
  | .syncP1 len address => tailFits minPacketLen len 0 address
  | .syncP2 len timestamp => tailFits minPacketLen len 0 timestamp
  | .corrP0 len count => tailFits minPacketZeroLen len corrCountStart count
  | .corrP1 len timestamp => tailFits minPacketLen len 0 timestamp

/-- The operands an encoding admits. -/
abbrev Instr.WellFormed (i : Instr) : Prop := i.wellFormed = true

/-- A code the wire can carry, as a test: a packet holds 1 to 20 symbols (R73). -/
def Code.wellFormed : Code → Bool
  | .word _ => true
  | .symbol _ => true
  | .packet payloads => decide (minPacketLen ≤ payloads.length) && decide (payloads.length ≤ maxAppends)

/-- A code the wire can carry. -/
abbrev Code.WellFormed (c : Code) : Prop := c.wellFormed = true

end Sys2Proof
end

