-- ==== Sys2Proof/Decode.lean ====
section
/-! DEFINITION. From codes to instructions and back. A word and a symbol decode by their bits alone (R70, R72). A
packet carries no format of its own: `kind` and `message_packet_index` select it (R74, R160), and for packet 0 the
type code does (R77). Bit positions are those of R76; a packet that no format takes is rejected by the name of the
error it raises (R81, R231). -/

namespace Sys2Proof

open Sys2Proof.Machine

/-- Why a packet decodes to no instruction (R81, R231). Each is an ordinary outcome of the machine, not a stop. -/
inductive Reject where
  /-- The block is resynchronizing and drops the packet (R138). -/
  | ignored
  /-- No payload at all: not a packet (R73). -/
  | empty
  /-- More than 20 symbols: `OVERFLOW` (R136). -/
  | overflow
  /-- No candidate's packet-0 format takes it: `NO_KIND` (R162). -/
  | noKind
  /-- A packet 0 expected of a determined kind does not match: `PACKET_MISMATCH` (R163; no run reaches it). -/
  | packetMismatch
  /-- The message already has all its packets: `EXCESS_PACKET` (R164). -/
  | excessPacket
deriving DecidableEq, Repr

/-- The decoder's answer. -/
inductive Decoded where
  | instr (i : Instr)
  | reject (r : Reject)
deriving DecidableEq, Repr

/-- The instruction, where there is one. -/
def Decoded.toOption : Decoded → Option Instr
  | .instr i => some i
  | .reject _ => none

/-- A symbol, by its control bits (R72). -/
def decodeSymbol (b : Symbol) : Instr :=
  match symEop b, symEom b with
  | false, false => .symData (symPayload b)
  | true, false => .symEop (symPayload b)
  | false, true => .symEom (symPayload b)
  | true, true => .symEopm (symPayload b)

/-- A word, by its four bytes (R70). -/
def decodeWord (w : Word) : Instr :=
  .word (wordSymbol w 0) (wordSymbol w 1) (wordSymbol w 2) (wordSymbol w 3)

/-- `b` of `len` symbols as packet 0 of kind `k`, by the layouts of R76: the type code, then the fixed fields, then
the terminal field. A one-symbol packet fits none (R186). -/
def decodePacket0 (k : Kind) (len : Nat) (b : PacketBits) : Option Instr :=
  if len < minPacketZeroLen then none
  else if typeCodeOf k ≠ some (b.extractLsb' 0 typeBits) then none
  else match k with
  | .indirectBranch =>
    some (.ibP0 len (b.extractLsb' typeBits branchBits) (b.extractLsb' ibCountStart (packetCapacity - ibCountStart)))
  | .indirectBranchSync =>
    some (.ibsP0 len (b.extractLsb' typeBits directBits) (b.extractLsb' (typeBits + directBits) branchBits)
      (b.extractLsb' ibsCountStart (packetCapacity - ibsCountStart)))
  | .sync =>
    some (.syncP0 len (b.extractLsb' typeBits directBits)
      (b.extractLsb' syncCountStart (packetCapacity - syncCountStart)))
  | .correction =>
    if b.extractLsb' typeBits eventBits = eventCodeCORR then
      some (.corrP0 len (b.extractLsb' corrCountStart (packetCapacity - corrCountStart)))
    else none
  | .ignoring => none
  | .undetermined => none

/-- The first candidate of a list whose packet-0 format takes the packet (R160, R167). -/
def decodeCandidates (len : Nat) (b : PacketBits) : List Kind → Option Instr
  | [] => none
  | k :: ks =>
    match decodePacket0 k len b with
    | some i => some i
    | none => decodeCandidates len b ks

/-- `b` of `len` symbols as packet `index` (1 or 2) of kind `k` (R171 to R180). -/
def decodeLater (k : Kind) (index len : Nat) (b : PacketBits) : Option Instr :=
  match k, index with
  | .indirectBranch, 1 => some (.ibP1 len b)
  | .indirectBranch, 2 => some (.ibP2 len b)
  | .indirectBranchSync, 1 => some (.ibsP1 len b)
  | .indirectBranchSync, 2 => some (.ibsP2 len b)
  | .sync, 1 => some (.syncP1 len b)
  | .sync, 2 => some (.syncP2 len b)
  | .correction, 1 => some (.corrP1 len b)
  | _, _ => none

/-- The answer for a packet, or the name of the error it raises. -/
def orReject (r : Reject) : Option Instr → Decoded
  | some i => .instr i
  | none => .reject r

/-- A packet, in the context of `kind` and `message_packet_index` (R160). -/
def decodePacket (k : Kind) (index : U8) (payloads : List Payload) : Decoded :=
  let len := payloads.length
  let b := payloadsToBits payloads
  if k = .ignoring then .reject .ignored
  else if len = 0 then .reject .empty
  else if maxAppends < len then .reject .overflow
  else if k = .undetermined then orReject .noKind (decodeCandidates len b priority)
  else if index = 0#8 then orReject .packetMismatch (decodePacket0 k len b)
  else orReject .excessPacket (decodeLater k index.toNat len b)

/-- The decoder: total on every code, rejecting by name. -/
def decode (k : Kind) (index : U8) : Code → Decoded
  | .word w => .instr (decodeWord w)
  | .symbol b => .instr (decodeSymbol b)
  | .packet payloads => decodePacket k index payloads

/-- The bit string of a packet instruction, by the layouts of R76; 0 for a word or a symbol, which is no packet. -/
def packetBitsOf : Instr → PacketBits
  | .word _ _ _ _ => 0#packetCapacity
  | .symData _ => 0#packetCapacity
  | .symEop _ => 0#packetCapacity
  | .symEom _ => 0#packetCapacity
  | .symEopm _ => 0#packetCapacity
  | .ibP0 _ branchCode count => count ++ branchCode ++ typeIB
  | .ibP1 _ address => address
  | .ibP2 _ timestamp => timestamp
  | .ibsP0 _ directContinue branchCode count => count ++ branchCode ++ directContinue ++ typeIBS
  | .ibsP1 _ address => address
  | .ibsP2 _ timestamp => timestamp
  | .syncP0 _ directContinue count => count ++ directContinue ++ typeSYNC
  | .syncP1 _ address => address
  | .syncP2 _ timestamp => timestamp
  | .corrP0 _ count => count ++ eventCodeCORR ++ typeCORR
  | .corrP1 _ timestamp => timestamp

/-- The length of a packet instruction in symbols; 0 for a word or a symbol. -/
def packetLenOf : Instr → Nat
  | .word _ _ _ _ => 0
  | .symData _ => 0
  | .symEop _ => 0
  | .symEom _ => 0
  | .symEopm _ => 0
  | .ibP0 len _ _ => len
  | .ibP1 len _ => len
  | .ibP2 len _ => len
  | .ibsP0 len _ _ _ => len
  | .ibsP1 len _ => len
  | .ibsP2 len _ => len
  | .syncP0 len _ _ => len
  | .syncP1 len _ => len
  | .syncP2 len _ => len
  | .corrP0 len _ => len
  | .corrP1 len _ => len

/-- The payloads that carry a packet instruction (R83). -/
def packetPayloads (i : Instr) : List Payload := bitsToPayloads (packetLenOf i) (packetBitsOf i)

/-- The encoder: what the wire carries for an instruction. -/
def encode (i : Instr) : Code :=
  match i with
  | .word s0 s1 s2 s3 => .word (wordOfSymbols s0 s1 s2 s3)
  | .symData p => .symbol (symbolOf p 0b00#ctrlBits)
  | .symEop p => .symbol (symbolOf p 0b01#ctrlBits)
  | .symEom p => .symbol (symbolOf p 0b10#ctrlBits)
  | .symEopm p => .symbol (symbolOf p 0b11#ctrlBits)
  | .ibP0 _ _ _ => .packet (packetPayloads i)
  | .ibP1 _ _ => .packet (packetPayloads i)
  | .ibP2 _ _ => .packet (packetPayloads i)
  | .ibsP0 _ _ _ _ => .packet (packetPayloads i)
  | .ibsP1 _ _ => .packet (packetPayloads i)
  | .ibsP2 _ _ => .packet (packetPayloads i)
  | .syncP0 _ _ _ => .packet (packetPayloads i)
  | .syncP1 _ _ => .packet (packetPayloads i)
  | .syncP2 _ _ => .packet (packetPayloads i)
  | .corrP0 _ _ => .packet (packetPayloads i)
  | .corrP1 _ _ => .packet (packetPayloads i)

/-- The context in which a row is selected (the table's "context" column; R160): any for a word or a symbol, the
`kind` and `message_packet_index` of the row for a packet. -/
def Instr.selectedIn (i : Instr) (k : Kind) (index : U8) : Bool :=
  match i with
  | .word _ _ _ _ => true
  | .symData _ => true
  | .symEop _ => true
  | .symEom _ => true
  | .symEopm _ => true
  | .ibP0 _ _ _ => decide (k = .undetermined)
  | .ibP1 _ _ => decide (k = .indirectBranch ∧ index = 1#8)
  | .ibP2 _ _ => decide (k = .indirectBranch ∧ index = 2#8)
  | .ibsP0 _ _ _ _ => decide (k = .undetermined)
  | .ibsP1 _ _ => decide (k = .indirectBranchSync ∧ index = 1#8)
  | .ibsP2 _ _ => decide (k = .indirectBranchSync ∧ index = 2#8)
  | .syncP0 _ _ _ => decide (k = .undetermined)
  | .syncP1 _ _ => decide (k = .sync ∧ index = 1#8)
  | .syncP2 _ _ => decide (k = .sync ∧ index = 2#8)
  | .corrP0 _ _ => decide (k = .undetermined)
  | .corrP1 _ _ => decide (k = .correction ∧ index = 1#8)

/-- The least number of symbols, at least 2, that hold the bits of `w` (R186). -/
def tableLen (w : Nat) : Nat :=
  if w < 2 ^ (payloadBits * minPacketZeroLen) then minPacketZeroLen else minPacketZeroLen + 1

/-- The code that a table row's bits stand for. The table numbers three layers alike, so the layer is chosen here:
more than 16 bits are a word; 9 to 16 bits are a packet (`CORR.P0` has 12); 8 bits are a packet 0 of two symbols
where the low six are the type code of `IB.P0`, `IBS.P0` or `SYNC.P0`, else a symbol (DESIGN CHOICE, log 4). -/
def tableCode (nbits w : Nat) : Code :=
  if 16 < nbits then .word (BitVec.ofNat wordBits w)
  else if 8 < nbits then .packet (bitsToPayloads (tableLen w) (BitVec.ofNat packetCapacity w))
  else if [typeIB, typeIBS, typeSYNC].contains (BitVec.ofNat typeBits w)
    then .packet (bitsToPayloads (tableLen w) (BitVec.ofNat packetCapacity w))
  else .symbol (BitVec.ofNat symbolBits w)

/-- The instruction that the decoder reads from a table row's bits, a packet as the first of a message. -/
def decodeTableWord (nbits w : Nat) : Option Instr :=
  (decode .undetermined 0#8 (tableCode nbits w)).toOption

end Sys2Proof
end

