-- ==== Sys2Proof/Machine/State.lean ====
section
/-! DEFINITION. The whole state of the block (R20), the ports it is reached by, and the machine after session
creation (R32, R260). Plain data throughout. -/

namespace Sys2Proof.Machine

/-- The TrackingContext (R21, R22): the reconstructed address and whether it is meaningful. -/
structure TrackingContext where
  address : Address
  valid : Bool
deriving DecidableEq, Repr

/-- The message under construction (R25 to R28). -/
structure Message where
  kind : Kind
  branchKind : BranchKind
  instructionCount : InstructionCount
  directContinue : U8
  address : Address
  timestamp : Timestamp
deriving DecidableEq, Repr

/-- The StreamState (R23, R24, R25, R29). -/
structure StreamState where
  packetBits : PacketBits
  packetBitCount : U8
  message : Message
  messagePacketIndex : U8
deriving DecidableEq, Repr

/-- A decoded event (R60). R87 allows the sum type; its record form is in Machine/Ports.lean. -/
inductive Event where
  | branch (fromAddress toAddress : Address) (branchKind : BranchKind) (timestamp : Timestamp)
  | sync (address : Address) (timestamp : Timestamp)
deriving DecidableEq, Repr

/-- The error reasons (R231), as the optional diagnostic port shows them (R66). -/
inductive Reason where
  | overflow
  | noKind
  | packetMismatch
  | excessPacket
  | trackerFailed
deriving DecidableEq, Repr

/-- What the input port last answered (R130); `idle` before the first word (log 8). -/
inductive WordStatus where
  | idle
  | accepted
  | refused
deriving DecidableEq, Repr

/-- The machine. `ctx`, `st` and `aborted` are the spec's whole state (R20). `cfg` carries the open parameters
(R6; constant in every run). The last four fields are the ports: what upstream has offered and the block has not
taken (R51, R65), the answer to the last word (R130), the events out (R60) and the diagnostic port (R66). -/
structure State where
  ctx : TrackingContext
  st : StreamState
  aborted : Bool
  cfg : Config
  wordIn : List Code
  wordStatus : WordStatus
  eventOut : List Event
  diag : List Reason
deriving DecidableEq, Repr

/-- No step of this machine stops with a fault: the spec's recoverable errors (R231) are next states, and its fatal
error sets `aborted` (R236), after which words are turned away without a state change (log 24). -/
inductive Fault
deriving DecidableEq, Repr

/-- Why a step has no meaning. -/
inductive Refusal where
  /-- Raised only by an arm of `exec` whose instruction has no meaning yet; none is left. Safe: the model stops. -/
  | notModelled (mnemonic : String)
deriving DecidableEq, Repr

/-- A message with every field but `kind` zeroed (R25). -/
def Message.zeroed (k : Kind) : Message where
  kind := k
  branchKind := .undefined
  instructionCount := 0#icountBits
  directContinue := 0#8
  address := 0#addrBits
  timestamp := 0#tsBits

/-- Session creation for given parameters (R32, R260, R261). -/
def State.resetWith (cfg : Config) : State where
  ctx := { address := 0#addrBits, valid := false }
  st := { packetBits := 0#packetCapacity, packetBitCount := 0#8, message := Message.zeroed (resetKindOf cfg),
          messagePacketIndex := 0#8 }
  aborted := false
  cfg := cfg
  wordIn := []
  wordStatus := .idle
  eventOut := []
  diag := []

/-- Session creation with the default parameters (R32): the machine right after reset. -/
def State.reset : State := State.resetWith defaultConfig

end Sys2Proof.Machine
end

