-- ==== Sys2Proof/Machine/Flags.lean ====
section
/-! DEFINITION. The block's two one-bit flags (R36): `S.ctx.valid` and `S.st.message.direct_continue`. It has no
condition codes. -/

namespace Sys2Proof.Machine

/-- `next.valid` of the tracker, by message kind (R202 to R205): set by an IndirectBranchSync or Sync message, kept
by the others. -/
def nextValid (k : Kind) (old : Bool) : Bool :=
  match k with
  | .indirectBranchSync => true
  | .sync => true
  | .indirectBranch => old
  | .correction => old
  | .ignoring => old
  | .undetermined => old

/-- `direct_continue <- raw[7:0]` (R107). The field that feeds it has one bit, so it holds 0 or 1 (R28). -/
def Message.setDirectContinue (m : Message) (raw : Raw) : Message :=
  { m with directContinue := raw.setWidth 8 }

end Sys2Proof.Machine
end

