-- ==== Sys2Proof/Machine/Ops.lean ====
section
/-! DEFINITION. The named operations on the state: the packet buffer (R54, R131), the message (R161), the event and
diagnostic outputs (R10, R66), and the two error entries, recovery (R231, R234) and the fatal abort (R236). The way
back from recovery is the resync (R138), from an abort a new session (R31, R260). -/

namespace Sys2Proof.Machine

/-- `ResetBuffer()` (R131): every bit and the count to 0 (D17). -/
def StreamState.resetBuffer (st : StreamState) : StreamState :=
  { st with packetBits := 0#packetCapacity, packetBitCount := 0#8 }

/-- `bits[c+5 : c] <- p` (R131). -/
def writePayload (bits : PacketBits) (c : Nat) (p : Payload) : PacketBits :=
  (bits &&& ~~~((BitVec.allOnes payloadBits).setWidth packetCapacity <<< c)) ||| (p.setWidth packetCapacity <<< c)

/-- The append of R131: the payload at the current offset, the count up by 6. -/
def StreamState.append (st : StreamState) (p : Payload) : StreamState :=
  { st with
    packetBits := writePayload st.packetBits st.packetBitCount.toNat p
    packetBitCount := st.packetBitCount + BitVec.ofNat 8 payloadBits }

/-- The overflow test of R131, `c + 6 > PACKET_CAPACITY`, on naturals (log 27). -/
def StreamState.full (st : StreamState) : Bool :=
  decide (packetCapacity < st.packetBitCount.toNat + payloadBits)

/-- `ZeroMessage()` (R161): every message field but `kind`. -/
def StreamState.zeroMessage (st : StreamState) : StreamState :=
  { st with message := Message.zeroed st.message.kind }

/-- `kind <- k; message_packet_index <- i`. -/
def StreamState.setKindIndex (st : StreamState) (k : Kind) (i : U8) : StreamState :=
  { st with message := { st.message with kind := k }, messagePacketIndex := i }

/-- `Emit` (R10), for the events of one interpretation, in order. -/
def State.emit (s : State) (evs : List Event) : State := { s with eventOut := s.eventOut ++ evs }

/-- A reason code on the diagnostic port (R66, R231). -/
def State.report (s : State) (r : Reason) : State := { s with diag := s.diag ++ [r] }

/-- `raise Recover(reason)` with the state writes of R231 and R234: the kind given, index 0, buffer empty. It
touches no other state. -/
def recover (r : Reason) (k : Kind) (s : State) : State :=
  { s.report r with st := (s.st.setKindIndex k 0#8).resetBuffer }

/-- `raise Fatal(TRACKER_FAILED)` (R236): the session is aborted. -/
def fatal (s : State) : State := { s.report .trackerFailed with aborted := true }

/-- The return from recovery (R138): on a resync symbol the block is `Undetermined` again, index 0, buffer empty. -/
def resync (s : State) : State := { s with st := (s.st.setKindIndex .undetermined 0#8).resetBuffer }

/-- The end of a message (R131): "Regardless of tracker outcome", kind `Undetermined` and index 0. -/
def endMessage (s : State) : State := { s with st := s.st.setKindIndex .undetermined 0#8 }

/-- What upstream may do (R51, R65): offer a word, to be taken after those offered before. -/
def State.offer (s : State) (w : Word) : State := { s with wordIn := s.wordIn ++ [.word w] }

/-- What the session owner may do (R65, R260, D21): end the session and create a new one on the words still to
come. Only the parameters, which no instance changes (R7), and the offered words outlive it. -/
def State.newSession (s : State) : State := { State.resetWith s.cfg with wordIn := s.wordIn }

end Sys2Proof.Machine
end

