-- ==== Sys2Proof/Machine/Extractor.lean ====
section
/-! DEFINITION. The Field Extractor (R100 to R103) and the Field Table Decoder (R104 to R109), as the spec writes
them: reads of the packet buffer, writes to the message and to three scratch slots. -/

namespace Sys2Proof.Machine

/-- `Extract(off, w)` (R100): bits `off .. off+w-1` of the buffer, zero above; `none` is `Fail(InsufficientBits)`
(R101). No field is wider than 64 bits, so the value is held in 64 (R102). -/
def extract (st : StreamState) (off w : Nat) : Option Raw :=
  if st.packetBitCount.toNat < off + w then none
  else some ((st.packetBits.extractLsb' off w).setWidth rawBits)

/-- The width a field asks for (R103, R104): its own, or for a terminal field all that is left, bounded by the
destination. -/
def fieldWidth (f : FieldDesc) (off count : Nat) : Nat :=
  if f.srcBits = 0 then min (count - off) (8 * f.dstBytes) else f.srcBits

/-- The scratch slots (R30): temporaries of one table decode, read by no rule afterwards. -/
structure Scratch where
  typeCode : U8
  branchCode : U8
  eventCode : U8
deriving DecidableEq, Repr

/-- The scratch slots before a decode. No rule reads them (I8, log 14). -/
def Scratch.start : Scratch := ⟨0#8, 0#8, 0#8⟩

/-- `Write(slot, raw)` on a scratch slot (R107). -/
def Scratch.write (sc : Scratch) (slot : Slot) (raw : Raw) : Scratch :=
  match slot with
  | .typeCode => { sc with typeCode := raw.setWidth 8 }
  | .branchCode => { sc with branchCode := raw.setWidth 8 }
  | .eventCode => { sc with eventCode := raw.setWidth 8 }
  | .directContinue => sc
  | .instructionCount => sc
  | .address => sc
  | .timestamp => sc

/-- `Write(slot, raw)` on a message field (R107). -/
def Message.write (m : Message) (slot : Slot) (raw : Raw) : Message :=
  match slot with
  | .typeCode => m
  | .branchCode => m
  | .eventCode => m
  | .directContinue => m.setDirectContinue raw
  | .instructionCount => { m with instructionCount := raw.setWidth icountBits }
  | .address => { m with address := raw.setWidth addrBits }
  | .timestamp => { m with timestamp := raw.setWidth tsBits }

/-- The named value a validator maps a raw value to (R106). -/
inductive Mapped where
  | nothing
  | kind (k : Kind)
  | branchKind (b : BranchKind)
deriving DecidableEq, Repr

/-- The validators of R106: accepted or not, and the mapped value. A field without one is accepted. -/
def validate (cfg : Config) (v : Option Validator) (raw : Raw) : Bool × Mapped :=
  match v with
  | none => (true, .nothing)
  | some (.type k) => (decide ((typeCodeOf k).map (BitVec.setWidth rawBits) = some raw), .kind k)
  | some .branch =>
    (decide (raw = 0#rawBits ∨ raw = 1#rawBits), .branchKind (branchCodeMap cfg (raw.setWidth branchBits)))
  | some .event => (decide (raw = eventCodeCORR.setWidth rawBits), .nothing)

/-- `WriteMapped(slot, mapped)` (R107): only the branch code has a mapped destination. -/
def Message.writeMapped (m : Message) (mapped : Mapped) : Message :=
  match mapped with
  | .branchKind b => { m with branchKind := b }
  | .nothing => m
  | .kind _ => m

/-- The kind a type field names (R104). -/
def candidateOf (mapped : Mapped) (cand : Option Kind) : Option Kind :=
  match mapped with
  | .kind k => some k
  | .nothing => cand
  | .branchKind _ => cand

/-- What one table decode answers and leaves behind (R104, R105). -/
structure TableResult where
  ok : Bool
  cand : Option Kind
  scratch : Scratch
  message : Message
deriving DecidableEq, Repr

/-- The loop of `DecodeTable` (R104): from offset `off`, with the writes made so far. -/
def decodeFields (cfg : Config) (st : StreamState) :
    List FieldDesc → Nat → Option Kind → Scratch → Message → TableResult
  | [], _, cand, sc, m => ⟨true, cand, sc, m⟩
  | f :: fs, off, cand, sc, m =>
    match extract st off (fieldWidth f off st.packetBitCount.toNat) with
    | none => ⟨false, cand, sc, m⟩
    | some raw =>
      if (validate cfg f.validator raw).1 = false then
        ⟨false, cand, sc.write f.slot raw, m.write f.slot raw⟩
      else if f.srcBits = 0 then
        ⟨true, candidateOf (validate cfg f.validator raw).2 cand, sc.write f.slot raw,
          (m.write f.slot raw).writeMapped (validate cfg f.validator raw).2⟩
      else
        decodeFields cfg st fs (off + fieldWidth f off st.packetBitCount.toNat)
          (candidateOf (validate cfg f.validator raw).2 cand) (sc.write f.slot raw)
          ((m.write f.slot raw).writeMapped (validate cfg f.validator raw).2)

/-- `DecodeTable(T)` (R104), on the packet held in the buffer. -/
def decodeTable (cfg : Config) (st : StreamState) (t : List FieldDesc) : TableResult :=
  decodeFields cfg st t 0 none Scratch.start st.message

end Sys2Proof.Machine
end

