-- ==== Sys2Proof/Machine/Dispatcher.lean ====
section
/-! DEFINITION. The Message Type Dispatcher (R160 to R168), on the packet held in the buffer. -/

namespace Sys2Proof.Machine

/-- What `Dispatch` answers (R160): the stream state, and the reason of a failure. -/
structure Dispatched where
  st : StreamState
  failure : Option Reason
deriving DecidableEq, Repr

/-- The trials of a type-determining packet, in the order given (R160). The writes of a failed trial stay (R105);
`kind` is written only when a whole table has validated (R165). -/
def tryCandidates (cfg : Config) : List Kind → StreamState → Dispatched
  | [], st => ⟨st, some .noKind⟩
  | k :: ks, st =>
    let r := decodeTable cfg st (table k 0)
    if r.ok then
      ⟨({ st with message := r.message } : StreamState).setKindIndex (r.cand.getD k) 1#8, none⟩
    else tryCandidates cfg ks { st with message := r.message }

/-- The failure of a packet after packet 0 (R160): `kind` and index back to the start. -/
def dispatchFailure (r : Reason) (st : StreamState) : Dispatched :=
  ⟨st.setKindIndex .undetermined 0#8, some r⟩

/-- A packet of a message whose kind is determined (R163, R164). -/
def dispatchLater (cfg : Config) (st : StreamState) : Dispatched :=
  if st.messagePacketIndex.toNat < maxPackets st.message.kind then
    let r := decodeTable cfg st (table st.message.kind st.messagePacketIndex.toNat)
    if r.ok then ⟨{ st with message := r.message, messagePacketIndex := st.messagePacketIndex + 1#8 }, none⟩
    else dispatchFailure .packetMismatch { st with message := r.message }
  else dispatchFailure .excessPacket st

/-- `Dispatch()` (R160). -/
def dispatch (cfg : Config) (st : StreamState) : Dispatched :=
  if st.message.kind = .undetermined then tryCandidates cfg priority st.zeroMessage
  else dispatchLater cfg st

end Sys2Proof.Machine
end

