-- ==== Sys2Proof/Machine/Tracker.lean ====
section
/-! DEFINITION. The Address Tracker (R200 to R211): the only writer of `S.ctx` and the only source of events. -/

namespace Sys2Proof.Machine

/-- The next context and the events of one interpretation (R200). -/
structure Interpretation where
  ctx : TrackingContext
  events : List Event
deriving DecidableEq, Repr

/-- The live advance (R201), modulo 2^32 (D6). It is never stored. -/
def liveAdvance (old : TrackingContext) (m : Message) : Address := old.address + m.instructionCount.setWidth addrBits

/-- `Interp_IB` (R202): the XOR base is the address before the live advance (D7). -/
def interpIB (m : Message) (old : TrackingContext) : Interpretation :=
  let next : TrackingContext := ⟨old.address ^^^ m.address, nextValid .indirectBranch old.valid⟩
  ⟨next, if next.valid then [.branch (liveAdvance old m) next.address m.branchKind m.timestamp] else []⟩

/-- `Interp_IBS` (R203). -/
def interpIBS (m : Message) (old : TrackingContext) : Interpretation :=
  ⟨⟨m.address, nextValid .indirectBranchSync old.valid⟩,
   [.branch (liveAdvance old m) m.address m.branchKind m.timestamp]⟩

/-- `Interp_SYNC` (R204): no live advance. -/
def interpSYNC (m : Message) (old : TrackingContext) : Interpretation :=
  ⟨⟨m.address, nextValid .sync old.valid⟩, [.sync m.address m.timestamp]⟩

/-- `Interp_CORR` (R205): the live advance is discarded, so nothing changes and nothing is emitted. -/
def interpCORR (_m : Message) (old : TrackingContext) : Interpretation :=
  ⟨⟨old.address, nextValid .correction old.valid⟩, []⟩

/-- The case of `Interpret` (R200). It is never called in a control state; there it would change nothing (log 28). -/
def interpMessage (m : Message) (old : TrackingContext) : Interpretation :=
  match m.kind with
  | .indirectBranch => interpIB m old
  | .indirectBranchSync => interpIBS m old
  | .sync => interpSYNC m old
  | .correction => interpCORR m old
  | .ignoring => ⟨old, []⟩
  | .undetermined => ⟨old, []⟩

/-- What `Interpret` answers: the state after it, and whether it succeeded. -/
structure Tracked where
  state : State
  ok : Bool
deriving DecidableEq, Repr

/-- `Interpret()` (R200). It always succeeds (R206); the answer keeps the contract of R236. -/
def interpret (s : State) : Tracked :=
  let r := interpMessage s.st.message s.ctx
  ⟨{ s with ctx := r.ctx }.emit r.events, true⟩

end Sys2Proof.Machine
end

