-- ==== Sys2Proof/Machine/Assembler.lean ====
section
/-! DEFINITION. The Packet Assembler: the full step for one symbol (R131) and for one word (R130). -/

namespace Sys2Proof.Machine

/-- The end of a message whose last dispatch succeeded (R131): the tracker has run, `kind` and index start over, and
a tracker failure aborts the session (R236). -/
def completeMessage (t : Tracked) : State :=
  if t.ok then endMessage t.state else fatal (endMessage t.state)

/-- The state a failed dispatch leads to (R131): `Undetermined` with EOM, `Ignoring` without. -/
def failureKind (eom : Bool) : Kind := if eom then .undetermined else .ignoring

/-- What an EOP symbol does once its payload is appended (R131): dispatch, empty the buffer, then recover from a
failure or, on EOM, hand the message to the tracker. -/
def endPacket (eom : Bool) (s : State) : State :=
  let d := dispatch s.cfg s.st
  let s1 := { s with st := d.st.resetBuffer }
  match d.failure with
  | some r => recover r (failureKind eom) s1
  | none => if eom then completeMessage (interpret s1) else s1

/-- `Symbol(s)` (R131). -/
def symbolStep (b : Symbol) (s : State) : State :=
  if s.st.message.kind = .ignoring then
    if symEop b && symEom b then resync s else s
  else if s.st.full then recover .overflow .ignoring s
  else
    let s1 := { s with st := s.st.append (symPayload b) }
    if symEop b then endPacket (symEom b) s1 else s1

/-- A symbol as the block takes it: none is processed once the session is aborted (R31, R130, R233). -/
def runSymbol (b : Symbol) (s : State) : State := if s.aborted then s else symbolStep b s

/-- Symbols in stream order, each seeing all that the earlier ones did (R62). -/
def runSymbols : List Symbol → State → State
  | [], s => s
  | b :: bs, s => runSymbols bs (runSymbol b s)

/-- `AcceptWord(w)` (R130): refused without any change once the session is aborted, else its four symbols. -/
def acceptWord (w : Word) (s : State) : State :=
  if s.aborted then { s with wordStatus := .refused }
  else { runSymbols (wordSymbols w) s with wordStatus := .accepted }

/-- A packet on its own: the symbols that carry it, in order, the last with EOP alone (R73). -/
def runPacket (payloads : List Payload) (s : State) : State := runSymbols (packetSymbols 0b01#ctrlBits payloads) s

/-- What a code does to the block, whether or not a packet in it decodes (R130, R131). -/
def runCode (c : Code) (s : State) : State :=
  match c with
  | .word w => acceptWord w s
  | .symbol b => runSymbol b s
  | .packet payloads => runPacket payloads s

end Sys2Proof.Machine
end

