-- ==== Sys2Proof/Machine/CorrectionMessage.lean ====
section
/-! DEFINITION. The packet formats of Correction (R179, R180).
The hardware has no packet opcode: a packet is its symbols, the last with EOP (R73), and `kind` and
`message_packet_index` select the table that decodes it (R160, R168). So a packet row means: its payloads arrive. In
the row's context that is the row's table; elsewhere the same bits are what that context makes of them (log 18). -/

namespace Sys2Proof.Machine

/-- `CORR.P0` (R179): in `Undetermined`, kind Correction, index 1, instruction_count written. -/
def execCorrP0 (len : Nat) (count : BitVec (packetCapacity - corrCountStart)) (s : State) :
    Host.Outcome State Fault Refusal :=
  .next (runPacket (packetPayloads (.corrP0 len count)) s)

/-- `CORR.P1` (R180): in Correction at index 1, timestamp written, index 2. -/
def execCorrP1 (len : Nat) (timestamp : PacketBits) (s : State) : Host.Outcome State Fault Refusal :=
  .next (runPacket (packetPayloads (.corrP1 len timestamp)) s)

end Sys2Proof.Machine
end

