-- ==== Sys2Proof/Machine/IndirectBranch.lean ====
section
/-! DEFINITION. The packet formats of IndirectBranch (R170 to R172).
The hardware has no packet opcode: a packet is its symbols, the last with EOP (R73), and `kind` and
`message_packet_index` select the table that decodes it (R160, R168). So a packet row means: its payloads arrive. In
the row's context that is the row's table; elsewhere the same bits are what that context makes of them (log 18). -/

namespace Sys2Proof.Machine

/-- `IB.P0` (R170): in `Undetermined`, kind IndirectBranch, index 1, branch_kind and instruction_count written. -/
def execIbP0 (len : Nat) (branchCode : BitVec branchBits) (count : BitVec (packetCapacity - ibCountStart))
    (s : State) : Host.Outcome State Fault Refusal :=
  .next (runPacket (packetPayloads (.ibP0 len branchCode count)) s)

/-- `IB.P1` (R171): in IndirectBranch at index 1, address (the XOR diff) written, index 2. -/
def execIbP1 (len : Nat) (address : PacketBits) (s : State) : Host.Outcome State Fault Refusal :=
  .next (runPacket (packetPayloads (.ibP1 len address)) s)

/-- `IB.P2` (R172): in IndirectBranch at index 2, timestamp written, index 3. -/
def execIbP2 (len : Nat) (timestamp : PacketBits) (s : State) : Host.Outcome State Fault Refusal :=
  .next (runPacket (packetPayloads (.ibP2 len timestamp)) s)

end Sys2Proof.Machine
end

