-- ==== Sys2Proof/Machine/IndirectBranchSync.lean ====
section
/-! DEFINITION. The packet formats of IndirectBranchSync (R173 to R175).
The hardware has no packet opcode: a packet is its symbols, the last with EOP (R73), and `kind` and
`message_packet_index` select the table that decodes it (R160, R168). So a packet row means: its payloads arrive. In
the row's context that is the row's table; elsewhere the same bits are what that context makes of them (log 18). -/

namespace Sys2Proof.Machine

/-- `IBS.P0` (R173): in `Undetermined`, kind IndirectBranchSync, index 1, direct_continue, branch_kind and
instruction_count written. -/
def execIbsP0 (len : Nat) (directContinue : BitVec directBits) (branchCode : BitVec branchBits)
    (count : BitVec (packetCapacity - ibsCountStart)) (s : State) : Host.Outcome State Fault Refusal :=
  .next (runPacket (packetPayloads (.ibsP0 len directContinue branchCode count)) s)

/-- `IBS.P1` (R174): in IndirectBranchSync at index 1, address (absolute) written, index 2. -/
def execIbsP1 (len : Nat) (address : PacketBits) (s : State) : Host.Outcome State Fault Refusal :=
  .next (runPacket (packetPayloads (.ibsP1 len address)) s)

/-- `IBS.P2` (R175): in IndirectBranchSync at index 2, timestamp written, index 3. -/
def execIbsP2 (len : Nat) (timestamp : PacketBits) (s : State) : Host.Outcome State Fault Refusal :=
  .next (runPacket (packetPayloads (.ibsP2 len timestamp)) s)

end Sys2Proof.Machine
end

