-- ==== Sys2Proof/Machine/Symbols.lean ====
section
/-! DEFINITION. The symbol family (R132 to R135): each class is the symbol step of R131, the one full definition, on
a symbol with that class's control bits. -/

namespace Sys2Proof.Machine

/-- `SYM.DATA` (R132): control bits 00. -/
def execSymData (p : Payload) (s : State) : Host.Outcome State Fault Refusal :=
  .next (runSymbol (symbolOf p 0b00#ctrlBits) s)

/-- `SYM.EOP` (R133): control bits 01. -/
def execSymEop (p : Payload) (s : State) : Host.Outcome State Fault Refusal :=
  .next (runSymbol (symbolOf p 0b01#ctrlBits) s)

/-- `SYM.EOM` (R134): control bits 10. -/
def execSymEom (p : Payload) (s : State) : Host.Outcome State Fault Refusal :=
  .next (runSymbol (symbolOf p 0b10#ctrlBits) s)

/-- `SYM.EOPM` (R135): control bits 11. -/
def execSymEopm (p : Payload) (s : State) : Host.Outcome State Fault Refusal :=
  .next (runSymbol (symbolOf p 0b11#ctrlBits) s)

end Sys2Proof.Machine
end

