-- ==== Sys2Proof/Machine/SyncMessage.lean ====
section
/-! DEFINITION. The packet formats of Sync (R176 to R178).
The hardware has no packet opcode: a packet is its symbols, the last with EOP (R73), and `kind` and
`message_packet_index` select the table that decodes it (R160, R168). So a packet row means: its payloads arrive. In
the row's context that is the row's table; elsewhere the same bits are what that context makes of them (log 18). -/

namespace Sys2Proof.Machine

/-- `SYNC.P0` (R176): in `Undetermined`, kind Sync, index 1, direct_continue and instruction_count written. -/
def execSyncP0 (len : Nat) (directContinue : BitVec directBits) (count : BitVec (packetCapacity - syncCountStart))
    (s : State) : Host.Outcome State Fault Refusal :=
  .next (runPacket (packetPayloads (.syncP0 len directContinue count)) s)

/-- `SYNC.P1` (R177): in Sync at index 1, address (absolute) written, index 2. -/
def execSyncP1 (len : Nat) (address : PacketBits) (s : State) : Host.Outcome State Fault Refusal :=
  .next (runPacket (packetPayloads (.syncP1 len address)) s)

/-- `SYNC.P2` (R178): in Sync at index 2, timestamp written, index 3. -/
def execSyncP2 (len : Nat) (timestamp : PacketBits) (s : State) : Host.Outcome State Fault Refusal :=
  .next (runPacket (packetPayloads (.syncP2 len timestamp)) s)

end Sys2Proof.Machine
end

