-- ==== Sys2Proof/Machine/Words.lean ====
section
/-! DEFINITION. The word family: `WORD` (R130). -/

namespace Sys2Proof.Machine

/-- `WORD`: `AcceptWord` on the four symbols, lowest byte first (R70, R130). -/
def execWord (s0 s1 s2 s3 : Symbol) (s : State) : Host.Outcome State Fault Refusal :=
  .next (acceptWord (wordOfSymbols s0 s1 s2 s3) s)

end Sys2Proof.Machine
end

