-- ==== Sys2Proof/Machine/Dispatch.lean ====
section
/-! DEFINITION. One arm per row of spec/opcode_table.json. -/

namespace Sys2Proof.Machine

def exec (i : Instr) (s : State) : Host.Outcome State Fault Refusal :=
  match i with
  | .word s0 s1 s2 s3 => Sys2Proof.Machine.execWord s0 s1 s2 s3 s
  | .symData p => Sys2Proof.Machine.execSymData p s
  | .symEop p => Sys2Proof.Machine.execSymEop p s
  | .symEom p => Sys2Proof.Machine.execSymEom p s
  | .symEopm p => Sys2Proof.Machine.execSymEopm p s
  | .ibP0 len branchCode count => Sys2Proof.Machine.execIbP0 len branchCode count s
  | .ibP1 len address => Sys2Proof.Machine.execIbP1 len address s
  | .ibP2 len timestamp => Sys2Proof.Machine.execIbP2 len timestamp s
  | .ibsP0 len directContinue branchCode count => Sys2Proof.Machine.execIbsP0 len directContinue branchCode count s
  | .ibsP1 len address => Sys2Proof.Machine.execIbsP1 len address s
  | .ibsP2 len timestamp => Sys2Proof.Machine.execIbsP2 len timestamp s
  | .syncP0 len directContinue count => Sys2Proof.Machine.execSyncP0 len directContinue count s
  | .syncP1 len address => Sys2Proof.Machine.execSyncP1 len address s
  | .syncP2 len timestamp => Sys2Proof.Machine.execSyncP2 len timestamp s
  | .corrP0 len count => Sys2Proof.Machine.execCorrP0 len count s
  | .corrP1 len timestamp => Sys2Proof.Machine.execCorrP1 len timestamp s

end Sys2Proof.Machine
end

