-- ==== Sys2Proof/Machine/Step.lean ====
section
/-! DEFINITION. One step: the block takes the next unit offered on its input port and runs it to completion (R59,
R266). With nothing offered it waits and nothing changes (log 1). -/

namespace Sys2Proof.Machine

/-- The transition. A packet that decodes to no instruction still arrives, and takes the recovery the spec gives it
(R81, R231). -/
def step (s : State) : Host.Outcome State Fault Refusal :=
  match s.wordIn with
  | [] => .next s
  | c :: rest =>
    match decode s.st.message.kind s.st.messagePacketIndex c with
    | .instr i => exec i { s with wordIn := rest }
    | .reject _ => .next (runCode c { s with wordIn := rest })

/-- `s` with a table row's bits offered next, ahead of what is already offered. A packet of the table is the first
of its message, so the context that selects it is set too (R160): `Undetermined`, index 0 (logs 3 and 4). -/
def State.withFetchWord (s : State) (nbits w : Nat) : State :=
  match tableCode nbits w with
  | .word w => { s with wordIn := .word w :: s.wordIn }
  | .symbol b => { s with wordIn := .symbol b :: s.wordIn }
  | .packet ps => { s with wordIn := .packet ps :: s.wordIn, st := s.st.setKindIndex .undetermined 0#8 }

end Sys2Proof.Machine
end

