-- ==== Sys2Proof/Machine/Ports.lean ====
section
/-! DEFINITION. What the ports show: the numeric codes of the enumerations (R26, R27, R231), the event record (R87),
the byte view of the buffer (R55) and a run's output (R263). -/

namespace Sys2Proof.Machine

/-- The numeric code of a `Kind` (R26, D4). -/
def kindCode : Kind → Nat
  | .ignoring => 0
  | .undetermined => 1
  | .indirectBranch => 2
  | .indirectBranchSync => 3
  | .sync => 4
  | .correction => 5

/-- The numeric code of a `BranchKind` (R27, D4), in the three bits of an event record (R87). -/
def branchKindCode : BranchKind → BitVec 3
  | .undefined => 0#3
  | .normal => 1#3
  | .nonOcdException => 2#3
  | .loopback => 3#3
  | .ocdReturn => 4#3
  | .ocdException => 5#3

/-- The diagnostic code of a reason (R231, D13). -/
def reasonCode : Reason → Nat
  | .overflow => 1
  | .noKind => 2
  | .packetMismatch => 3
  | .excessPacket => 4
  | .trackerFailed => 16

/-- The event record of R87 (D14). -/
structure EventRecord where
  tag : BitVec 1
  fromAddress : Address
  toAddress : Address
  branchKind : BitVec 3
  timestamp : Timestamp
deriving DecidableEq, Repr

/-- An event as the record a port carries (R87); the unused fields of a Sync record are 0 (I12). -/
def Event.record : Event → EventRecord
  | .branch fromAddress toAddress branchKind timestamp =>
    ⟨0#1, fromAddress, toAddress, branchKindCode branchKind, timestamp⟩
  | .sync address timestamp => ⟨1#1, 0#addrBits, address, 0#3, timestamp⟩

/-- Byte `n` of the 15-byte view of the buffer (R55). -/
def StreamState.bufferByte (st : StreamState) (n : Nat) : U8 := st.packetBits.extractLsb' (8 * n) 8

/-- A run's whole output (R263): the events emitted. A message or packet under construction adds nothing. -/
def State.output (s : State) : List Event := s.eventOut

end Sys2Proof.Machine
end

