-- ==== Sys2Proof/Safety.lean ====
section
/-! DEFINITION. What the spec says holds of the state between symbols, in the terms the statements use: the legal
values of the counters (R24, R29), the content of the buffer (D17), and what each stage of a message has and has not
written (R27, R28, R181). -/

namespace Sys2Proof.Machine

/-- R24 and D17: the count is a multiple of 6 up to 120, and every bit at or above it is 0. -/
abbrev bufferLegal (st : StreamState) : Prop :=
  st.packetBitCount.toNat % payloadBits = 0 ∧ st.packetBitCount.toNat ≤ packetCapacity ∧
    st.packetBits.toNat < 2 ^ st.packetBitCount.toNat

/-- R29: a control state has index 0, a message kind `K` an index from 1 to `MAX_PACKETS(K)`. -/
abbrev indexLegal (st : StreamState) : Prop :=
  if st.message.kind = .ignoring ∨ st.message.kind = .undetermined then st.messagePacketIndex = 0#8
  else 1 ≤ st.messagePacketIndex.toNat ∧ st.messagePacketIndex.toNat ≤ maxPackets st.message.kind

/-- R27: `branch_kind` is the zeroed value or one of the two that `BRANCH_CODE_MAP` gives. -/
abbrev branchKindLegal (cfg : Config) (m : Message) : Prop :=
  m.branchKind = .undefined ∨ m.branchKind = cfg.branchCode0 ∨ m.branchKind = cfg.branchCode1

/-- R181 and R208, for a determined kind: the fields of packets not yet carried are 0, an IndirectBranch or
IndirectBranchSync message has a branch kind from the map, and the other kinds have `Undefined`. -/
abbrev messageLegal (cfg : Config) (st : StreamState) : Prop :=
  match st.message.kind with
  | .ignoring => True
  | .undetermined => True
  | .indirectBranch =>
    (st.message.branchKind = cfg.branchCode0 ∨ st.message.branchKind = cfg.branchCode1) ∧
    st.message.directContinue = 0#8 ∧
    (st.messagePacketIndex.toNat ≤ 1 → st.message.address = 0#addrBits) ∧
    (st.messagePacketIndex.toNat ≤ 2 → st.message.timestamp = 0#tsBits)
  | .indirectBranchSync =>
    (st.message.branchKind = cfg.branchCode0 ∨ st.message.branchKind = cfg.branchCode1) ∧
    (st.messagePacketIndex.toNat ≤ 1 → st.message.address = 0#addrBits) ∧
    (st.messagePacketIndex.toNat ≤ 2 → st.message.timestamp = 0#tsBits)
  | .sync =>
    st.message.branchKind = .undefined ∧
    (st.messagePacketIndex.toNat ≤ 1 → st.message.address = 0#addrBits) ∧
    (st.messagePacketIndex.toNat ≤ 2 → st.message.timestamp = 0#tsBits)
  | .correction =>
    st.message.branchKind = .undefined ∧ st.message.directContinue = 0#8 ∧ st.message.address = 0#addrBits ∧
    (st.messagePacketIndex.toNat ≤ 1 → st.message.timestamp = 0#tsBits)

/-- The invariant of the stream state: what R24, R27, R28, R29, R181 and R208 say of it after every symbol, and that
the buffer is empty while the block resynchronizes (R136, R137). -/
structure StreamState.Legal (cfg : Config) (st : StreamState) : Prop where
  buffer : bufferLegal st
  index : indexLegal st
  branchKind : branchKindLegal cfg st.message
  direct : st.message.directContinue.toNat ≤ 1
  message : messageLegal cfg st
  ignoring : st.message.kind = .ignoring → st.packetBitCount = 0#8

/-- A state as runs reach it: a legal stream state and no abort (R31: `S.aborted` stays false in every run). -/
structure State.Inv (s : State) : Prop where
  stream : s.st.Legal s.cfg
  running : s.aborted = false

/-- R210 in terms of the output: `valid` holds exactly when some event has been emitted, since every
IndirectBranchSync and Sync message emits one and an IndirectBranch message emits one only when `valid` holds. -/
def State.ValidIffEvents (s : State) : Prop := s.ctx.valid = true ↔ s.eventOut ≠ []

/-- The block is active (R26) at the start of a packet: no bits of a packet held, and not aborted. -/
structure State.PacketStart (s : State) : Prop where
  running : s.aborted = false
  active : s.st.message.kind ≠ .ignoring
  count : s.st.packetBitCount = 0#8
  bits : s.st.packetBits = 0#packetCapacity

/-- `s` after one whole message, given as its packets: their symbols, the last with EOP and EOM (R74, R83). -/
def State.afterMessage (s : State) (packets : List Instr) : State :=
  runSymbols (messageSymbols (packets.map packetPayloads)) s

end Sys2Proof.Machine
end

