-- ==== Sys2Proof/Certificates/Slice0/Obligations.lean ====
section
/-! DEFINITION. The statements about the model, for the provers. Each docstring names the rule of spec/ it formalises.
A mark in brackets after a rule is the spec's own: `[derived]`, an inference the spec draws, or `[D<n>]`, a decision of
92_eei_decisions.md. A statement that rests on a marked rule, or on a choice of the model, has basis 'derived' in
OBLIGATIONS.json; it holds for every value of the two open parameters unless it says otherwise. The numbers of R6 are
written out here, so that the statements also say that the named constants of Machine/Params.lean have them. -/

open Sys2Proof Sys2Proof.Machine

/-! ## Encoding -/

/-- Decoding what the encoder writes gives the instruction back, for every row, every operand its encoding admits and
every context that selects the row (R70, R71 [D19], R76 [derived], R83 [D19]; the table's context column). No bit is
dropped. -/
def Obligations.DecodeOfEncodeIsTheInstruction : Prop :=
  ∀ (i : Instr) (k : Kind) (index : U8), i.WellFormed → i.selectedIn k index = true →
    decode k index (encode i) = .instr i

/-- Each code has one meaning: what decodes to an instruction is that instruction's encoding, and the instruction is
well formed (R70, R71 [D19], R76 [derived], R186 [derived]). -/
def Obligations.EncodeOfDecodeIsTheCode : Prop :=
  ∀ (k : Kind) (index : U8) (c : Code) (i : Instr), decode k index c = .instr i →
    i.WellFormed ∧ encode i = c

/-- R72: the two control bits of a symbol give its class, by the mask and match of the table. -/
def Obligations.ControlBitsGiveTheClass : Prop :=
  ∀ (b : U8) (k : Kind) (index : U8),
    (b &&& 0x03#8 = 0x00#8 → decode k index (.symbol b) = .instr (.symData (b.extractLsb' 2 6))) ∧
    (b &&& 0x03#8 = 0x01#8 → decode k index (.symbol b) = .instr (.symEop (b.extractLsb' 2 6))) ∧
    (b &&& 0x03#8 = 0x02#8 → decode k index (.symbol b) = .instr (.symEom (b.extractLsb' 2 6))) ∧
    (b &&& 0x03#8 = 0x03#8 → decode k index (.symbol b) = .instr (.symEopm (b.extractLsb' 2 6)))

/-- Words of the spec, one or more for each family, decode to what the spec says they are: the symbol examples of
R132 [derived] to R135 [derived], the word of R130 [D12], and the packets of R170 to R180 as payloads (symbol bytes
shifted right by 2). -/
def Obligations.WordsOfTheSpecDecode : Prop :=
  decode .undetermined 0#8 (.word 0x00005530#32) = .instr (.word 0x30#8 0x55#8 0x00#8 0x00#8) ∧
  decode .undetermined 0#8 (.symbol 0x10#8) = .instr (.symData 4#6) ∧
  decode .undetermined 0#8 (.symbol 0x55#8) = .instr (.symEop 21#6) ∧
  decode .undetermined 0#8 (.symbol 0x12#8) = .instr (.symEom 4#6) ∧
  decode .undetermined 0#8 (.symbol 0x0b#8) = .instr (.symEopm 2#6) ∧
  decode .undetermined 0#8 (.packet [4#6, 3#6]) = .instr (.ibP0 2 1#1 1#113) ∧
  decode .indirectBranch 1#8 (.packet [0x3c#6, 0x2a#6]) = .instr (.ibP1 2 0xABC#120) ∧
  decode .undetermined 0#8 (.packet [0x0c#6, 0x15#6]) = .instr (.ibsP0 2 1#1 0#1 5#112) ∧
  decode .indirectBranchSync 2#8 (.packet [0x34#6, 8#6, 1#6]) = .instr (.ibsP2 3 0x1234#120) ∧
  decode .undetermined 0#8 (.packet [9#6, 6#6]) = .instr (.syncP0 2 0#1 3#113) ∧
  decode .undetermined 0#8 (.packet [0x21#6, 0x0a#6, 7#6]) = .instr (.corrP0 3 7#108) ∧
  decode .correction 1#8 (.packet [0x19#6, 2#6]) = .instr (.corrP1 2 0x99#120)

/-- R77, R80, R186 [derived]: which type-determining packets have a format. One symbol never has; with two or more it
depends on the first payload alone, but for the Correction type, which needs the event code 0xa next. -/
def Obligations.RecognizedPacketZeros : Prop :=
  (∀ (index : U8) (p : Payload), decode .undetermined index (.packet [p]) = .reject .noKind) ∧
  (∀ (index : U8) (p q : Payload) (ps : List Payload), ps.length ≤ 18 →
    (decode .undetermined index (.packet (p :: q :: ps)) = .reject .noKind ↔
      p ≠ 4#6 ∧ p ≠ 12#6 ∧ p ≠ 9#6 ∧ ¬ (p = 33#6 ∧ q = 0xa#6)))

/-! ## The step -/

/-- A step takes the first unit offered (log 1) and runs what it decodes to (logs 2 and 21); nothing is added but that
the unit is taken. -/
def Obligations.StepRunsTheDecodedInstruction : Prop :=
  ∀ (s : State) (c : Code) (rest : List Code) (i : Instr), s.wordIn = c :: rest →
    decode s.st.message.kind s.st.messagePacketIndex c = .instr i →
    step s = exec i { s with wordIn := rest }

/-- The model's choice (logs 1 and 21): with nothing offered a step changes nothing; a packet that no format takes
still arrives, symbol by symbol. -/
def Obligations.StepWithoutAnInstruction : Prop :=
  (∀ s : State, s.wordIn = [] → step s = .next s) ∧
  (∀ (s : State) (ps : List Payload) (rest : List Code) (r : Reject), s.wordIn = .packet ps :: rest →
    decode s.st.message.kind s.st.messagePacketIndex (.packet ps) = .reject r →
    step s = .next (runSymbols (packetSymbols 0b01#2 ps) { s with wordIn := rest }))

/-- R51 [D1], R141 [derived]: the block never blocks: every state has a next state. -/
def Obligations.EveryStepHasANextState : Prop :=
  ∀ s : State, ∃ t : State, step s = .next t

/-- A step leaves the parameters as they are (R7, R35). That it takes one unit off the list of what the input port
offers (R51 [D1]) is the model's choice: a word, a symbol or a packet alike (logs 1 and 2), a refused word too (log 8),
and an idle step keeps the empty list. -/
def Obligations.StepTakesOneUnitAndKeepsTheParameters : Prop :=
  ∀ s t : State, step s = .next t → t.cfg = s.cfg ∧ t.wordIn = s.wordIn.tail

/-! ## Words -/

/-- R130 [D12]: a word runs its four symbols in order, lowest byte first, each skipped once the session is aborted;
an aborted session refuses the word and changes nothing. That the port's last answer is a field, `wordStatus`, is the
model's choice (log 8). -/
def Obligations.WordRunsItsFourSymbols : Prop :=
  ∀ (s0 s1 s2 s3 : U8) (s : State),
    (s.aborted = false → exec (.word s0 s1 s2 s3) s =
      .next { runSymbol s3 (runSymbol s2 (runSymbol s1 (runSymbol s0 s))) with wordStatus := .accepted }) ∧
    (s.aborted = true → exec (.word s0 s1 s2 s3) s = .next { s with wordStatus := .refused })

/-- R52, R130 [D12]: symbol `k` of the word taken is `w[8k+7 : 8k]`, and a step runs symbols 0, 1, 2, 3 in that order.
The unit taken off the list (log 1) and the answer kept in `wordStatus` (log 8) are the model's choice. -/
def Obligations.WordSymbolsLowestByteFirst : Prop :=
  ∀ (s : State) (w : Word) (rest : List Code), s.wordIn = .word w :: rest → s.aborted = false →
    step s = .next { runSymbols [w.extractLsb' 0 8, w.extractLsb' 8 8, w.extractLsb' 16 8, w.extractLsb' 24 8]
      { s with wordIn := rest } with wordStatus := .accepted }

/-- R61 [derived]: a word adds at most two events, after those already out, from every state. -/
def Obligations.AtMostTwoEventsPerWord : Prop :=
  ∀ (s0 s1 s2 s3 : U8) (s : State), ∃ (t : State) (evs : List Event),
    exec (.word s0 s1 s2 s3) s = .next t ∧ t.eventOut = s.eventOut ++ evs ∧ evs.length ≤ 2

/-! ## Symbols -/

/-- R132 [derived], and R134 [derived] for EOM without EOP: `SYM.DATA` and `SYM.EOM` in every state. -/
def Obligations.DataSymbolAppendsOrOverflows : Prop :=
  ∀ (p : Payload) (s : State),
    let t : State :=
      if s.aborted = true ∨ s.st.message.kind = .ignoring then s
      else if 120 < s.st.packetBitCount.toNat + 6 then
        { s with
          st := { packetBits := 0#120, packetBitCount := 0#8, messagePacketIndex := 0#8,
                  message := { s.st.message with kind := .ignoring } }
          diag := s.diag ++ [.overflow] }
      else
        { s with st := { s.st with
            packetBits := writePayload s.st.packetBits s.st.packetBitCount.toNat p
            packetBitCount := s.st.packetBitCount + 6#8 } }
    exec (.symData p) s = .next t ∧ exec (.symEom p) s = .next t

/-- R134 [derived]: EOM without EOP is not examined: `SYM.EOM` does what `SYM.DATA` does, in every state. -/
def Obligations.EomAloneIsData : Prop :=
  ∀ (p : Payload) (s : State), exec (.symEom p) s = exec (.symData p) s

/-- R133 [derived]: `SYM.EOP` in every state: dropped, overflow, or append, dispatch, empty buffer; a failed dispatch
leads to `Ignoring` with its reason reported, and interpretation does not run. -/
def Obligations.EopSymbolEndsThePacket : Prop :=
  ∀ (p : Payload) (s : State), exec (.symEop p) s = .next (
    if s.aborted = true ∨ s.st.message.kind = .ignoring then s
    else if 120 < s.st.packetBitCount.toNat + 6 then
      { s with
        st := { packetBits := 0#120, packetBitCount := 0#8, messagePacketIndex := 0#8,
                message := { s.st.message with kind := .ignoring } }
        diag := s.diag ++ [.overflow] }
    else match dispatch s.cfg (s.st.append p) with
      | ⟨st, none⟩ => { s with st := { st with packetBits := 0#120, packetBitCount := 0#8 } }
      | ⟨st, some r⟩ =>
        { s with
          st := { packetBits := 0#120, packetBitCount := 0#8, messagePacketIndex := 0#8,
                  message := { st.message with kind := .ignoring } }
          diag := s.diag ++ [r] })

/-- R135 [derived]: `SYM.EOPM` in every state: resync, overflow, or append and dispatch; then recovery to
`Undetermined`, or the interpretation of the message, its events out, and `Undetermined`. -/
def Obligations.EopmSymbolEndsTheMessage : Prop :=
  ∀ (p : Payload) (s : State), exec (.symEopm p) s = .next (
    if s.aborted = true then s
    else if s.st.message.kind = .ignoring then
      { s with st := { packetBits := 0#120, packetBitCount := 0#8, messagePacketIndex := 0#8,
                       message := { s.st.message with kind := .undetermined } } }
    else if 120 < s.st.packetBitCount.toNat + 6 then
      { s with
        st := { packetBits := 0#120, packetBitCount := 0#8, messagePacketIndex := 0#8,
                message := { s.st.message with kind := .ignoring } }
        diag := s.diag ++ [.overflow] }
    else match dispatch s.cfg (s.st.append p) with
      | ⟨st, some r⟩ =>
        { s with
          st := { packetBits := 0#120, packetBitCount := 0#8, messagePacketIndex := 0#8,
                  message := { st.message with kind := .undetermined } }
          diag := s.diag ++ [r] }
      | ⟨st, none⟩ =>
        { s with
          ctx := (interpMessage st.message s.ctx).ctx
          eventOut := s.eventOut ++ (interpMessage st.message s.ctx).events
          st := { packetBits := 0#120, packetBitCount := 0#8, messagePacketIndex := 0#8,
                  message := { st.message with kind := .undetermined } } })

/-- R54: the payload appended at count `c` becomes packet bits `c .. c+5`, lowest first, so that of the `n`-th symbol
fills bits `6n .. 6n+5`; no other bit changes, and the count grows by 6. -/
def Obligations.AppendPlacesThePayload : Prop :=
  ∀ (st : StreamState) (p : Payload), st.packetBitCount.toNat + 6 ≤ 120 →
    (st.append p).packetBitCount.toNat = st.packetBitCount.toNat + 6 ∧
    (∀ j : Nat, j < 6 → (st.append p).packetBits.getLsbD (st.packetBitCount.toNat + j) = p.getLsbD j) ∧
    (∀ n j : Nat, st.packetBitCount.toNat = 6 * n → j < 6 →
      (st.append p).packetBits.getLsbD (6 * n + j) = p.getLsbD j) ∧
    (∀ i : Nat, i < st.packetBitCount.toNat ∨ st.packetBitCount.toNat + 6 ≤ i →
      (st.append p).packetBits.getLsbD i = st.packetBits.getLsbD i)

/-- R136 [D8]: a symbol of any class that arrives when the packet holds 120 bits: `Ignoring`, index 0, buffer empty,
`OVERFLOW` reported, nothing else; its control bits do nothing. -/
def Obligations.OverflowAbandonsThePacket : Prop :=
  ∀ (b : U8) (s : State), s.aborted = false → s.st.message.kind ≠ .ignoring → s.st.packetBitCount = 120#8 →
    runSymbol b s = { s with
      st := { packetBits := 0#120, packetBitCount := 0#8, messagePacketIndex := 0#8,
              message := { s.st.message with kind := .ignoring } }
      diag := s.diag ++ [.overflow] }

/-- R138 [D9], R235: in `Ignoring` every run of symbols other than EOP+EOM is dropped whole, and the first EOP+EOM
symbol returns the block to `Undetermined` with index 0 and an empty buffer; nothing else is written. -/
def Obligations.ResyncSkipsToTheFirstMarker : Prop :=
  ∀ (bs : List U8) (r : U8) (s : State), s.aborted = false → s.st.message.kind = .ignoring →
    (∀ b ∈ bs, b &&& 0x03#8 ≠ 0x03#8) → r &&& 0x03#8 = 0x03#8 →
    runSymbols bs s = s ∧
    runSymbols (bs ++ [r]) s = { s with
      st := { packetBits := 0#120, packetBitCount := 0#8, messagePacketIndex := 0#8,
              message := { s.st.message with kind := .undetermined } } }

/-- R137 [derived]: after the symbol that ends a packet, whether its dispatch succeeded or failed, the buffer is
empty. -/
def Obligations.BufferEmptyAfterEveryPacket : Prop :=
  ∀ (b : U8) (s : State), s.aborted = false → s.st.message.kind ≠ .ignoring →
    s.st.packetBitCount.toNat + 6 ≤ 120 → b.getLsbD 0 = true →
    (runSymbol b s).st.packetBitCount = 0#8 ∧ (runSymbol b s).st.packetBits = 0#120

/-- R140 [derived]: after an EOP+EOM symbol, in the active state without overflow or in `Ignoring`, the block is
`Undetermined`, index 0, count 0, whether the dispatch succeeded or failed. -/
def Obligations.MessageEndStartsOver : Prop :=
  ∀ (b : U8) (s : State), s.aborted = false → b &&& 0x03#8 = 0x03#8 →
    (s.st.message.kind ≠ .ignoring → s.st.packetBitCount.toNat + 6 ≤ 120) →
    (runSymbol b s).st.message.kind = .undetermined ∧ (runSymbol b s).st.messagePacketIndex = 0#8 ∧
      (runSymbol b s).st.packetBitCount = 0#8

/-- R207 [derived] (and R61 [derived]'s proof): a symbol adds at most one event, and only an EOP+EOM symbol of the
active state whose dispatch succeeds adds any. -/
def Obligations.OnlyMessageEndsEmit : Prop :=
  ∀ (b : U8) (s : State), ∃ evs : List Event,
    (runSymbol b s).eventOut = s.eventOut ++ evs ∧ evs.length ≤ 1 ∧
    (evs ≠ [] → b &&& 0x03#8 = 0x03#8 ∧ s.aborted = false ∧ s.st.message.kind ≠ .ignoring ∧
      (dispatch s.cfg (s.st.append (b.extractLsb' 2 6))).failure = none)

/-- R231 [D13], R233 [derived], R234 [derived]: a symbol that raises an error reports one reason, `OVERFLOW` exactly
when the packet has no room, and writes kind, index and buffer as the table of R231 says. The data fields `m` stay as
they were, but that a failed type determination leaves what its dispatch wrote (R162); nothing else is written: not the
context, the events, the parameters, the abort bit or the input port. -/
def Obligations.RecoverableErrorFrame : Prop :=
  ∀ (b : U8) (s : State), (runSymbol b s).diag ≠ s.diag →
    ∃ (r : Reason) (m : Message),
      runSymbol b s = { s with
        st := { packetBits := 0#120, packetBitCount := 0#8, messagePacketIndex := 0#8, message := { m with
          kind := if r = .overflow then .ignoring else if b.getLsbD 1 = true then .undetermined else .ignoring } }
        diag := s.diag ++ [r] } ∧
      r ≠ .trackerFailed ∧ (r = .overflow ↔ 120 < s.st.packetBitCount.toNat + 6) ∧
      (r = .overflow ∨ r = .excessPacket → m = s.st.message) ∧
      (r = .noKind ∨ r = .packetMismatch → m = (dispatch s.cfg (s.st.append (b.extractLsb' 2 6))).st.message) ∧
      (r ≠ .overflow → (dispatch s.cfg (s.st.append (b.extractLsb' 2 6))).failure = some r)

/-! ## The Field Extractor and the Field Table Decoder -/

/-- R100: `Extract(off, w)` fails exactly when fewer than `w` bits remain, and else gives packet bits `off ..
off+w-1`, with every bit from `w` up 0. -/
def Obligations.ExtractReadsThePacketBits : Prop :=
  ∀ (st : StreamState) (off w : Nat), off ≤ 120 → w ≤ 64 →
    (st.packetBitCount.toNat < off + w → extract st off w = none) ∧
    (off + w ≤ st.packetBitCount.toNat → ∃ v : Raw, extract st off w = some v ∧
      (∀ j : Nat, j < w → v.getLsbD j = st.packetBits.getLsbD (off + j)) ∧
      (∀ j : Nat, w ≤ j → v.getLsbD j = false))

/-- R110 [derived]: the boundary example of the source, on `P[12 bits](0x3FC)`. -/
def Obligations.ExtractBoundaryExample : Prop :=
  ∀ m : Message, ∀ i : U8, ∀ st : StreamState, st = ⟨0x3FC#120, 12#8, m, i⟩ →
    extract st 2 6 = some 0x3F#64 ∧ extract st 2 7 = some 0x7F#64 ∧ extract st 2 8 = some 0xFF#64 ∧
    extract st 2 11 = none

/-- R103 [D5]: a terminal field never fails; it takes all that remains, at most its destination's width, zero above,
and ends the table. -/
def Obligations.TerminalFieldTakesTheRest : Prop :=
  ∀ (cfg : Config) (st : StreamState) (dstBytes : Nat) (slot : Slot) (fs : List FieldDesc) (off : Nat)
    (cand : Option Kind) (sc : Scratch) (m : Message), off ≤ st.packetBitCount.toNat →
    decodeFields cfg st (⟨0, dstBytes, slot, none⟩ :: fs) off cand sc m =
      let v : Raw := (st.packetBits.extractLsb' off (min (st.packetBitCount.toNat - off) (8 * dstBytes))).setWidth 64
      ⟨true, cand, sc.write slot v, m.write slot v⟩

/-- R55: packet bit `i` is bit `i mod 8` of byte `i div 8` of the 15-byte view, and bit `k` of a field of `w` bits at
`off` is packet bit `off + k`. -/
def Obligations.BufferByteView : Prop :=
  ∀ (st : StreamState),
    (∀ i : Nat, i < 120 → i / 8 < 15 ∧ st.packetBits.getLsbD i = (st.bufferByte (i / 8)).getLsbD (i % 8)) ∧
    (∀ off w k : Nat, off + w ≤ st.packetBitCount.toNat → w ≤ 64 → k < w →
      (extract st off w).map (fun v => v.getLsbD k) = some (st.packetBits.getLsbD (off + k)))

/-- R75 [D18], R168 [D5, D11]: every table of the registry has its one terminal field last, and its other fields fit
their destinations. -/
def Obligations.TablesEndInTheirTerminalField : Prop :=
  ∀ (k : Kind) (i : Nat), i < maxPackets k → tableWellFormed (table k i) = true

/-- R170: `IB.P0` on the packet held, `b` its bits and `n` its length, for every value of `BRANCH_CODE_MAP`. -/
def Obligations.IbP0TableDecodes : Prop :=
  ∀ (cfg : Config) (st : StreamState),
    let b := st.packetBits
    let n := st.packetBitCount.toNat
    let r := decodeTable cfg st (table .indirectBranch 0)
    (6 ≤ n → r.scratch.typeCode = (b.extractLsb' 0 6).setWidth 8) ∧
    (r.ok = true ↔ b.extractLsb' 0 6 = 4#6 ∧ 7 ≤ n) ∧
    (b.extractLsb' 0 6 = 4#6 → 7 ≤ n → r.cand = some .indirectBranch ∧
      r.scratch.branchCode = (b.extractLsb' 6 1).setWidth 8 ∧
      r.message = { st.message with
        branchKind := branchCodeMap cfg (b.extractLsb' 6 1)
        instructionCount := (bitSlice b 7 (min n 23)).setWidth 16 })

/-- R173: `IBS.P0` on the packet held, for every value of `BRANCH_CODE_MAP`. -/
def Obligations.IbsP0TableDecodes : Prop :=
  ∀ (cfg : Config) (st : StreamState),
    let b := st.packetBits
    let n := st.packetBitCount.toNat
    let r := decodeTable cfg st (table .indirectBranchSync 0)
    (6 ≤ n → r.scratch.typeCode = (b.extractLsb' 0 6).setWidth 8) ∧
    (b.extractLsb' 0 6 = 12#6 → 7 ≤ n → r.message.directContinue = (b.extractLsb' 6 1).setWidth 8) ∧
    (r.ok = true ↔ b.extractLsb' 0 6 = 12#6 ∧ 8 ≤ n) ∧
    (b.extractLsb' 0 6 = 12#6 → 8 ≤ n → r.cand = some .indirectBranchSync ∧
      r.scratch.branchCode = (b.extractLsb' 7 1).setWidth 8 ∧
      r.message = { st.message with
        directContinue := (b.extractLsb' 6 1).setWidth 8
        branchKind := branchCodeMap cfg (b.extractLsb' 7 1)
        instructionCount := (bitSlice b 8 (min n 24)).setWidth 16 })

/-- R176: `SYNC.P0` on the packet held; `branch_kind` is not written. -/
def Obligations.SyncP0TableDecodes : Prop :=
  ∀ (cfg : Config) (st : StreamState),
    let b := st.packetBits
    let n := st.packetBitCount.toNat
    let r := decodeTable cfg st (table .sync 0)
    (6 ≤ n → r.scratch.typeCode = (b.extractLsb' 0 6).setWidth 8) ∧
    (r.ok = true ↔ b.extractLsb' 0 6 = 9#6 ∧ 7 ≤ n) ∧
    (b.extractLsb' 0 6 = 9#6 → 7 ≤ n → r.cand = some .sync ∧
      r.message = { st.message with
        directContinue := (b.extractLsb' 6 1).setWidth 8
        instructionCount := (bitSlice b 7 (min n 23)).setWidth 16 })

/-- R179: `CORR.P0` on the packet held. -/
def Obligations.CorrP0TableDecodes : Prop :=
  ∀ (cfg : Config) (st : StreamState),
    let b := st.packetBits
    let n := st.packetBitCount.toNat
    let r := decodeTable cfg st (table .correction 0)
    (6 ≤ n → r.scratch.typeCode = (b.extractLsb' 0 6).setWidth 8) ∧
    (b.extractLsb' 0 6 = 33#6 → 12 ≤ n → r.scratch.eventCode = (b.extractLsb' 6 6).setWidth 8) ∧
    (r.ok = true ↔ b.extractLsb' 0 6 = 33#6 ∧ 12 ≤ n ∧ b.extractLsb' 6 6 = 0xa#6) ∧
    (b.extractLsb' 0 6 = 33#6 → 12 ≤ n → b.extractLsb' 6 6 = 0xa#6 → r.cand = some .correction ∧
      r.message = { st.message with instructionCount := (bitSlice b 12 (min n 28)).setWidth 16 })

/-- R171, R174, R177: the address packets, on the packet held: always ok. -/
def Obligations.AddressTablesDecode : Prop :=
  ∀ (cfg : Config) (st : StreamState) (k : Kind), k = .indirectBranch ∨ k = .indirectBranchSync ∨ k = .sync →
    (decodeTable cfg st (table k 1)).ok = true ∧
    (decodeTable cfg st (table k 1)).message = { st.message with
      address := (bitSlice st.packetBits 0 (min st.packetBitCount.toNat 32)).setWidth 32 }

/-- R172, R175, R178, R180: the timestamp packets, on the packet held: always ok. -/
def Obligations.TimestampTablesDecode : Prop :=
  ∀ (cfg : Config) (st : StreamState) (k : Kind) (i : Nat),
    ((k = .indirectBranch ∨ k = .indirectBranchSync ∨ k = .sync) ∧ i = 2) ∨ (k = .correction ∧ i = 1) →
    (decodeTable cfg st (table k i)).ok = true ∧
    (decodeTable cfg st (table k i)).message = { st.message with
      timestamp := (bitSlice st.packetBits 0 (min st.packetBitCount.toNat 64)).setWidth 64 }

/-! ## The dispatcher -/

/-- R166 [derived]: at most one candidate's packet-0 table validates. -/
def Obligations.AtMostOneCandidateValidates : Prop :=
  ∀ (cfg : Config) (st : StreamState) (k l : Kind), k ∈ priority → l ∈ priority →
    (decodeTable cfg st (table k 0)).ok = true → (decodeTable cfg st (table l 0)).ok = true → k = l

/-- R160 [D13], R161 [D10], R165, R166 [derived]: a type-determining packet that validates as kind `k` gives a fresh
message of that kind with that table's fields and no trace of the failed trials, and index 1. -/
def Obligations.TypeDeterminationStartsAFreshMessage : Prop :=
  ∀ (cfg : Config) (st : StreamState) (k : Kind), st.message.kind = .undetermined → k ∈ priority →
    (decodeTable cfg st.zeroMessage (table k 0)).ok = true →
    dispatch cfg st = ⟨{ st with
      message := { (decodeTable cfg st.zeroMessage (table k 0)).message with kind := k }
      messagePacketIndex := 1#8 }, none⟩

/-- R162: no candidate validates: `NO_KIND`, with kind and index as they were. -/
def Obligations.NoCandidateLeavesTheKind : Prop :=
  ∀ (cfg : Config) (st : StreamState), st.message.kind = .undetermined →
    (∀ k ∈ priority, (decodeTable cfg st (table k 0)).ok = false) →
    (dispatch cfg st).failure = some .noKind ∧ (dispatch cfg st).st.message.kind = .undetermined ∧
      (dispatch cfg st).st.messagePacketIndex = st.messagePacketIndex

/-- R163 [derived]: a packet after packet 0 of a message that still expects one is decoded with `TABLE(K, i)`, never
fails, and moves the index on. -/
def Obligations.LaterPacketsNeverFail : Prop :=
  ∀ (cfg : Config) (st : StreamState), 1 ≤ st.messagePacketIndex.toNat →
    st.messagePacketIndex.toNat < maxPackets st.message.kind →
    dispatch cfg st = ⟨{ st with
      message := (decodeTable cfg st (table st.message.kind st.messagePacketIndex.toNat)).message
      messagePacketIndex := st.messagePacketIndex + 1#8 }, none⟩

/-- R164 [derived]: a packet of a message that already has all its packets fails with `EXCESS_PACKET`, and kind and
index start over. For the message kinds that is the rule; in `Ignoring`, where R160 [D13] never calls the dispatcher,
the same answer is the model's own choice (log 23). -/
def Obligations.ExcessPacketDropsTheMessage : Prop :=
  ∀ (cfg : Config) (st : StreamState), st.message.kind ≠ .undetermined →
    maxPackets st.message.kind ≤ st.messagePacketIndex.toNat →
    dispatch cfg st = ⟨{ st with message := { st.message with kind := .undetermined }
                                 messagePacketIndex := 0#8 }, some .excessPacket⟩

/-- R23 [D17]: what the dispatcher answers does not depend on the buffer above the count, and it leaves the buffer
and the count alone. -/
def Obligations.DispatchReadsOnlyBelowTheCount : Prop :=
  ∀ (cfg : Config) (st : StreamState) (bits : PacketBits),
    (∀ i : Nat, i < st.packetBitCount.toNat → bits.getLsbD i = st.packetBits.getLsbD i) →
    (dispatch cfg { st with packetBits := bits }).failure = (dispatch cfg st).failure ∧
    (dispatch cfg { st with packetBits := bits }).st = { (dispatch cfg st).st with packetBits := bits } ∧
    (dispatch cfg st).st.packetBits = st.packetBits ∧
    (dispatch cfg st).st.packetBitCount = st.packetBitCount

/-! ## Packet rows -/

/-- R170, R173, R176, R179 with R160 [D13], R161 [D10] and R137 [derived]: a packet 0 that arrives whole in
`Undetermined` starts a fresh message of its kind, with the fields of its row and every other field 0; index 1,
buffer empty, nothing else. The packet arrives with EOP alone on its last symbol (log 18). -/
def Obligations.PacketZeroRowsComplete : Prop :=
  ∀ (s : State), s.PacketStart → s.st.message.kind = .undetermined →
    (∀ len bc count, (Instr.ibP0 len bc count).WellFormed → exec (.ibP0 len bc count) s =
      .next { s with st := { packetBits := 0#120, packetBitCount := 0#8, messagePacketIndex := 1#8, message :=
        { kind := .indirectBranch, branchKind := branchCodeMap s.cfg bc, instructionCount := count.setWidth 16,
          directContinue := 0#8, address := 0#32, timestamp := 0#64 } } }) ∧
    (∀ len dc bc count, (Instr.ibsP0 len dc bc count).WellFormed → exec (.ibsP0 len dc bc count) s =
      .next { s with st := { packetBits := 0#120, packetBitCount := 0#8, messagePacketIndex := 1#8, message :=
        { kind := .indirectBranchSync, branchKind := branchCodeMap s.cfg bc, instructionCount := count.setWidth 16,
          directContinue := dc.setWidth 8, address := 0#32, timestamp := 0#64 } } }) ∧
    (∀ len dc count, (Instr.syncP0 len dc count).WellFormed → exec (.syncP0 len dc count) s =
      .next { s with st := { packetBits := 0#120, packetBitCount := 0#8, messagePacketIndex := 1#8, message :=
        { kind := .sync, branchKind := .undefined, instructionCount := count.setWidth 16,
          directContinue := dc.setWidth 8, address := 0#32, timestamp := 0#64 } } }) ∧
    (∀ len count, (Instr.corrP0 len count).WellFormed → exec (.corrP0 len count) s =
      .next { s with st := { packetBits := 0#120, packetBitCount := 0#8, messagePacketIndex := 1#8, message :=
        { kind := .correction, branchKind := .undefined, instructionCount := count.setWidth 16,
          directContinue := 0#8, address := 0#32, timestamp := 0#64 } } })

/-- R171, R174, R177: an address packet in its context writes the low 32 bits of its value and moves the index to 2;
nothing else changes. The packet arrives with EOP alone on its last symbol (log 18). -/
def Obligations.AddressRowsComplete : Prop :=
  ∀ (s : State) (len : Nat) (a : PacketBits), s.PacketStart → s.st.messagePacketIndex = 1#8 →
    (Instr.ibP1 len a).WellFormed →
    (s.st.message.kind = .indirectBranch → exec (.ibP1 len a) s =
      .next { s with st := { s.st with message := { s.st.message with address := a.setWidth 32 },
                                       messagePacketIndex := 2#8 } }) ∧
    (s.st.message.kind = .indirectBranchSync → exec (.ibsP1 len a) s =
      .next { s with st := { s.st with message := { s.st.message with address := a.setWidth 32 },
                                       messagePacketIndex := 2#8 } }) ∧
    (s.st.message.kind = .sync → exec (.syncP1 len a) s =
      .next { s with st := { s.st with message := { s.st.message with address := a.setWidth 32 },
                                       messagePacketIndex := 2#8 } })

/-- R172, R175, R178, R180: a timestamp packet in its context writes the low 64 bits of its value and moves the index
on by 1; nothing else changes. The packet arrives with EOP alone on its last symbol (log 18). -/
def Obligations.TimestampRowsComplete : Prop :=
  ∀ (s : State) (len : Nat) (ts : PacketBits), s.PacketStart → (Instr.ibP2 len ts).WellFormed →
    (s.st.message.kind = .indirectBranch → s.st.messagePacketIndex = 2#8 → exec (.ibP2 len ts) s =
      .next { s with st := { s.st with message := { s.st.message with timestamp := ts.setWidth 64 },
                                       messagePacketIndex := 3#8 } }) ∧
    (s.st.message.kind = .indirectBranchSync → s.st.messagePacketIndex = 2#8 → exec (.ibsP2 len ts) s =
      .next { s with st := { s.st with message := { s.st.message with timestamp := ts.setWidth 64 },
                                       messagePacketIndex := 3#8 } }) ∧
    (s.st.message.kind = .sync → s.st.messagePacketIndex = 2#8 → exec (.syncP2 len ts) s =
      .next { s with st := { s.st with message := { s.st.message with timestamp := ts.setWidth 64 },
                                       messagePacketIndex := 3#8 } }) ∧
    (s.st.message.kind = .correction → s.st.messagePacketIndex = 1#8 → exec (.corrP1 len ts) s =
      .next { s with st := { s.st with message := { s.st.message with timestamp := ts.setWidth 64 },
                                       messagePacketIndex := 2#8 } })

/-- The model's choice (log 18), after R73 [derived]: every instruction does what its code on the wire does, in every
state. -/
def Obligations.ExecRunsTheCodeOnTheWire : Prop :=
  ∀ (i : Instr) (s : State), exec i s = .next (runCode (encode i) s)

/-- R138 [D9]: a whole packet that arrives while the block resynchronizes is dropped, since no symbol of it is
EOP+EOM. That a packet unit ends with EOP alone, in every state, is the model's choice (log 18): by R73 [derived] and
R74 [derived] a message's last packet ends with `SYM.EOPM`, which would resynchronize the block. -/
def Obligations.PacketRowsDroppedWhileIgnoring : Prop :=
  ∀ (i : Instr) (ps : List Payload) (s : State), encode i = .packet ps → s.st.message.kind = .ignoring →
    exec i s = .next s

/-! ## The Address Tracker -/

/-- R202 [D7]: an IndirectBranch message: the address becomes its XOR with the message's, taken before the live
advance (log 11); `valid` is kept; a Branch event from the live advance to the new address is emitted exactly when
`valid` holds; nothing else changes. -/
def Obligations.IndirectBranchInterpretation : Prop :=
  ∀ (s : State), s.st.message.kind = .indirectBranch → interpret s = ⟨{ s with
    ctx := ⟨s.ctx.address ^^^ s.st.message.address, s.ctx.valid⟩
    eventOut := s.eventOut ++ (if s.ctx.valid = true then
      [.branch (s.ctx.address + s.st.message.instructionCount.setWidth 32)
        (s.ctx.address ^^^ s.st.message.address) s.st.message.branchKind s.st.message.timestamp] else []) },
    true⟩

/-- R203, R204, R205: the other kinds. IndirectBranchSync: the absolute address, `valid` set, always a Branch event from
the live advance. Sync: the absolute address, `valid` set, always a Sync event, no live advance. Correction: nothing
changes and nothing is emitted. Each succeeds, and changes nothing else. -/
def Obligations.AbsoluteAndCorrectionInterpretations : Prop :=
  ∀ (s : State),
    (s.st.message.kind = .indirectBranchSync → interpret s = ⟨{ s with
      ctx := ⟨s.st.message.address, true⟩
      eventOut := s.eventOut ++ [.branch (s.ctx.address + s.st.message.instructionCount.setWidth 32)
        s.st.message.address s.st.message.branchKind s.st.message.timestamp] }, true⟩) ∧
    (s.st.message.kind = .sync → interpret s = ⟨{ s with
      ctx := ⟨s.st.message.address, true⟩
      eventOut := s.eventOut ++ [.sync s.st.message.address s.st.message.timestamp] }, true⟩) ∧
    (s.st.message.kind = .correction → interpret s = ⟨s, true⟩)

/-- R211: whatever a symbol does, the stored address is the old one, its XOR with the message's address, or the
message's address; the live advance is not among them. -/
def Obligations.StoredAddressIsNotTheLiveAdvance : Prop :=
  ∀ (b : U8) (s : State),
    let m := (dispatch s.cfg (s.st.append (b.extractLsb' 2 6))).st.message
    (runSymbol b s).ctx.address = s.ctx.address ∨
    (m.kind = .indirectBranch ∧ (runSymbol b s).ctx.address = s.ctx.address ^^^ m.address) ∨
    ((m.kind = .indirectBranchSync ∨ m.kind = .sync) ∧ (runSymbol b s).ctx.address = m.address)

/-- R22 [derived]: once `valid` is true it stays true. -/
def Obligations.ValidStaysTrue : Prop :=
  ∀ s t : State, step s = .next t → s.ctx.valid = true → t.ctx.valid = true

/-- R210 [derived]: a step keeps the equivalence of `valid` and some event having been emitted, from every state. -/
def Obligations.StepKeepsValidIffEvents : Prop :=
  ∀ s t : State, s.ValidIffEvents → step s = .next t → t.ValidIffEvents

/-- R209 [derived]: `direct_continue` has no effect: two runs over the same symbols that differ only in it have the
same context and the same events. -/
def Obligations.DirectContinueHasNoEffect : Prop :=
  ∀ (bs : List U8) (s : State) (v : U8),
    let s' := { s with st := { s.st with message := { s.st.message with directContinue := v } } }
    (runSymbols bs s').ctx = (runSymbols bs s).ctx ∧ (runSymbols bs s').eventOut = (runSymbols bs s).eventOut

/-! ## The fatal path -/

/-- R236 [D12], R231 [D13]: a tracker that failed would abort the session: kind `Undetermined`, index 0, `aborted`
set, the reason reported, and what the tracker emitted kept. -/
def Obligations.TrackerFailureAborts : Prop :=
  ∀ s : State, completeMessage ⟨s, false⟩ = { s with
    st := { s.st with message := { s.st.message with kind := .undetermined }, messagePacketIndex := 0#8 }
    aborted := true
    diag := s.diag ++ [.trackerFailed] }

/-- R31 [D12], R236 [D12]: once aborted, no instruction changes anything; a word is answered `refused`
(`wordStatus`, log 8). -/
def Obligations.AbortedSessionTakesNothing : Prop :=
  ∀ (i : Instr) (s : State), s.aborted = true →
    exec i s = .next (match i with
      | .word _ _ _ _ => { s with wordStatus := .refused }
      | _ => s)

/-! ## The whole machine -/

/-- R24 [derived], R27 [D3, D4], R28, R29 [derived, D9], R31 [D12], R181 [derived], R208 [D3]: the invariants of the
state hold after every step that starts from a state in which they hold. -/
def Obligations.StepKeepsTheInvariant : Prop :=
  ∀ s t : State, s.Inv → step s = .next t → t.Inv

/-- The invariants, and the equivalence of R210 [derived], hold after session creation, for every value of the
parameters. -/
def Obligations.ResetMeetsTheInvariants : Prop :=
  ∀ cfg : Config, (State.resetWith cfg).Inv ∧ (State.resetWith cfg).ValidIffEvents

/-- R32: the reset value of every field of the spec's state, for every value of the parameter `RESET_KIND`. -/
def Obligations.ResetValues : Prop :=
  ∀ cfg : Config,
    (State.resetWith cfg).ctx = ⟨0#32, false⟩ ∧
    (State.resetWith cfg).st = ⟨0#120, 0#8,
      ⟨(match cfg.resetKind with | .ignoring => Kind.ignoring | .undetermined => Kind.undetermined),
        .undefined, 0#16, 0#8, 0#32, 0#64⟩, 0#8⟩ ∧
    (State.resetWith cfg).aborted = false

/-- The model's choice (logs 1, 5, 6, 7, 8, 9): the machine after reset has the default parameters (decisions D2 and
D3) and empty ports. -/
def Obligations.ResetDefaults : Prop :=
  State.reset = State.resetWith ⟨.undetermined, .normal, .nonOcdException⟩ ∧
  State.reset.st.message.kind = .undetermined ∧
  State.reset.wordIn = [] ∧ State.reset.wordStatus = .idle ∧ State.reset.eventOut = [] ∧ State.reset.diag = []

/-- The round trip of the source's §8 (vector X2): an IndirectBranchSync message and then a Sync message, each of
three packets of any length, from a block that awaits a message: exactly one Branch event, then one Sync event, with
the absolute addresses encoded, and the context left at the second. -/
def Obligations.RoundTripFraming : Prop :=
  ∀ (s : State) (l0 l1 l2 k0 k1 k2 : Nat) (dc bc dc' : BitVec 1) (count : BitVec 112) (count' : BitVec 113)
    (a ts a' ts' : PacketBits), s.PacketStart → s.st.message.kind = .undetermined →
    (Instr.ibsP0 l0 dc bc count).WellFormed → (Instr.ibsP1 l1 a).WellFormed → (Instr.ibsP2 l2 ts).WellFormed →
    (Instr.syncP0 k0 dc' count').WellFormed → (Instr.syncP1 k1 a').WellFormed → (Instr.syncP2 k2 ts').WellFormed →
    let t := runSymbols
      (messageSymbols [packetPayloads (.ibsP0 l0 dc bc count), packetPayloads (.ibsP1 l1 a),
          packetPayloads (.ibsP2 l2 ts)] ++
        messageSymbols [packetPayloads (.syncP0 k0 dc' count'), packetPayloads (.syncP1 k1 a'),
          packetPayloads (.syncP2 k2 ts')]) s
    t.eventOut = s.eventOut ++
      [.branch (s.ctx.address + (count.setWidth 16).setWidth 32) (a.setWidth 32) (branchCodeMap s.cfg bc)
        (ts.setWidth 64),
       .sync (a'.setWidth 32) (ts'.setWidth 64)] ∧
    t.ctx = ⟨a'.setWidth 32, true⟩ ∧ t.diag = s.diag ∧ t.PacketStart ∧ t.st.message.kind = .undetermined

/-- R181 [derived], R74 [derived], with R200, R202 [D7], R203, R204 and R205: a message may end after any of its
packets, from a block that awaits one, whether or not `valid` holds. It is interpreted with the fields it carried,
every other field 0 (`out` of an address and a timestamp): IndirectBranch XORs the address, and emits its event if
`valid` holds; IndirectBranchSync and Sync set `valid` and emit; Correction does neither. The message fields stay,
`kind` and index start over, no error is reported, nothing else changes. -/
def Obligations.MessagesOfEveryLengthAreInterpreted : Prop :=
  ∀ (s : State) (l0 l1 l2 : Nat) (a ts : PacketBits), s.PacketStart → s.st.message.kind = .undetermined →
    (Instr.ibP1 l1 a).WellFormed → (Instr.ibP2 l2 ts).WellFormed →
    (∀ bc count, (Instr.ibP0 l0 bc count).WellFormed →
      let out (address : Address) (timestamp : Timestamp) : State := { s with
        ctx := ⟨s.ctx.address ^^^ address, s.ctx.valid⟩
        eventOut := s.eventOut ++ (if s.ctx.valid = true then
          [.branch (s.ctx.address + (count.setWidth 16).setWidth 32) (s.ctx.address ^^^ address)
            (branchCodeMap s.cfg bc) timestamp] else [])
        st := ⟨0#120, 0#8, ⟨.undetermined, branchCodeMap s.cfg bc, count.setWidth 16, 0#8, address, timestamp⟩, 0#8⟩ }
      s.afterMessage [.ibP0 l0 bc count] = out 0#32 0#64 ∧
      s.afterMessage [.ibP0 l0 bc count, .ibP1 l1 a] = out (a.setWidth 32) 0#64 ∧
      s.afterMessage [.ibP0 l0 bc count, .ibP1 l1 a, .ibP2 l2 ts] = out (a.setWidth 32) (ts.setWidth 64)) ∧
    (∀ dc bc count, (Instr.ibsP0 l0 dc bc count).WellFormed →
      let out (address : Address) (timestamp : Timestamp) : State := { s with
        ctx := ⟨address, true⟩
        eventOut := s.eventOut ++ [.branch (s.ctx.address + (count.setWidth 16).setWidth 32) address
          (branchCodeMap s.cfg bc) timestamp]
        st := ⟨0#120, 0#8,
          ⟨.undetermined, branchCodeMap s.cfg bc, count.setWidth 16, dc.setWidth 8, address, timestamp⟩, 0#8⟩ }
      s.afterMessage [.ibsP0 l0 dc bc count] = out 0#32 0#64 ∧
      s.afterMessage [.ibsP0 l0 dc bc count, .ibsP1 l1 a] = out (a.setWidth 32) 0#64 ∧
      s.afterMessage [.ibsP0 l0 dc bc count, .ibsP1 l1 a, .ibsP2 l2 ts] = out (a.setWidth 32) (ts.setWidth 64)) ∧
    (∀ dc count, (Instr.syncP0 l0 dc count).WellFormed →
      let out (address : Address) (timestamp : Timestamp) : State := { s with
        ctx := ⟨address, true⟩
        eventOut := s.eventOut ++ [.sync address timestamp]
        st := ⟨0#120, 0#8, ⟨.undetermined, .undefined, count.setWidth 16, dc.setWidth 8, address, timestamp⟩, 0#8⟩ }
      s.afterMessage [.syncP0 l0 dc count] = out 0#32 0#64 ∧
      s.afterMessage [.syncP0 l0 dc count, .syncP1 l1 a] = out (a.setWidth 32) 0#64 ∧
      s.afterMessage [.syncP0 l0 dc count, .syncP1 l1 a, .syncP2 l2 ts] = out (a.setWidth 32) (ts.setWidth 64)) ∧
    (∀ count, (Instr.corrP0 l0 count).WellFormed →
      let out (timestamp : Timestamp) : State := { s with
        st := ⟨0#120, 0#8, ⟨.undetermined, .undefined, count.setWidth 16, 0#8, 0#32, timestamp⟩, 0#8⟩ }
      s.afterMessage [.corrP0 l0 count] = out 0#64 ∧
      s.afterMessage [.corrP0 l0 count, .corrP1 l2 ts] = out (ts.setWidth 64))

/-! ## The ports -/

/-- R87 [D14], with the numeric codes of R26 [D2, D4], R27 [D3, D4] and R231 [D13]: the event record, field by field,
and the codes a port shows. -/
def Obligations.EventRecordsAndCodes : Prop :=
  (∀ (f t : Address) (k : BranchKind) (ts : Timestamp),
    (Event.branch f t k ts).record = ⟨0#1, f, t, branchKindCode k, ts⟩) ∧
  (∀ (a : Address) (ts : Timestamp), (Event.sync a ts).record = ⟨1#1, 0#32, a, 0#3, ts⟩) ∧
  ([Kind.ignoring, .undetermined, .indirectBranch, .indirectBranchSync, .sync, .correction].map kindCode =
    [0, 1, 2, 3, 4, 5]) ∧
  ([BranchKind.undefined, .normal, .nonOcdException, .loopback, .ocdReturn, .ocdException].map branchKindCode =
    [0#3, 1#3, 2#3, 3#3, 4#3, 5#3]) ∧
  ([Reason.overflow, .noKind, .packetMismatch, .excessPacket, .trackerFailed].map reasonCode = [1, 2, 3, 4, 16])
end

