-- ==== Sys2Proof/Laws/Params.lean ====
section
/-! SUPPORT. The definitions that name a parameter of R6, with its number written out: proofs rewrite by these. -/

namespace Sys2Proof.Machine

/-- Words are equal where their 32 bits are (R70). -/
theorem word_ext {x y : Word} (h : ∀ i, i < 32 → x.getLsbD i = y.getLsbD i) : x = y := BitVec.eq_of_getLsbD_eq h

/-- Symbols are equal where their 8 bits are (R71). -/
theorem symbol_ext {x y : Symbol} (h : ∀ i, i < 8 → x.getLsbD i = y.getLsbD i) : x = y :=
  BitVec.eq_of_getLsbD_eq h

/-- Payloads are equal where their 6 bits are (R71). -/
theorem payload_ext {x y : Payload} (h : ∀ i, i < 6 → x.getLsbD i = y.getLsbD i) : x = y :=
  BitVec.eq_of_getLsbD_eq h

/-- Buffers are equal where their 120 bits are (R23). -/
theorem packetBits_ext {x y : PacketBits} (h : ∀ i, i < 120 → x.getLsbD i = y.getLsbD i) : x = y :=
  BitVec.eq_of_getLsbD_eq h

/-- A payload has no bit at or above 6 (R71). -/
theorem payload_high (p : Payload) (i : Nat) (h : 6 ≤ i) : p.getLsbD i = false := BitVec.getLsbD_of_ge _ _ h

/-- The buffer has no bit at or above 120 (R23). -/
theorem packetBits_high (b : PacketBits) (i : Nat) (h : 120 ≤ i) : b.getLsbD i = false := BitVec.getLsbD_of_ge _ _ h

theorem wordSymbol_eq (w : Word) (k : Nat) : wordSymbol w k = w.extractLsb' (8 * k) 8 := rfl

theorem wordSymbols_eq (w : Word) :
    wordSymbols w = [wordSymbol w 0, wordSymbol w 1, wordSymbol w 2, wordSymbol w 3] := rfl

theorem symPayload_eq (b : Symbol) : symPayload b = b.extractLsb' 2 6 := rfl

theorem symControl_eq (b : Symbol) : symControl b = b.extractLsb' 0 2 := rfl

theorem symEop_eq (b : Symbol) : symEop b = b.getLsbD 0 := rfl

theorem symEom_eq (b : Symbol) : symEom b = b.getLsbD 1 := rfl

/-- Bit `i` of a symbol: the control below bit 2, the payload from it on (R71). -/
theorem getLsbD_symbolOf (p : Payload) (c : Control) (i : Nat) :
    (symbolOf p c).getLsbD i = if i < 2 then c.getLsbD i else p.getLsbD (i - 2) := by
  rw [symbolOf, BitVec.getLsbD_append]

/-- Bit `i` of a word: that of the symbol it falls in (R70). -/
theorem getLsbD_wordOfSymbols (s0 s1 s2 s3 : Symbol) (i : Nat) :
    (wordOfSymbols s0 s1 s2 s3).getLsbD i =
      if i < 8 then s0.getLsbD i else if i < 16 then s1.getLsbD (i - 8)
      else if i < 24 then s2.getLsbD (i - 16) else s3.getLsbD (i - 24) := by
  have h : ∀ (a b c d : BitVec 8), (a ++ b ++ c ++ d).getLsbD i =
      if i < 8 then d.getLsbD i else if i < 16 then c.getLsbD (i - 8)
      else if i < 24 then b.getLsbD (i - 16) else a.getLsbD (i - 24) := by
    intro a b c d
    simp only [BitVec.getLsbD_append]
    repeat' split
    all_goals first | (exfalso; omega) | rfl
  exact h s3 s2 s1 s0

theorem payloadsToBits_nil : payloadsToBits [] = 0#120 := rfl

theorem payloadsToBits_cons (p : Payload) (ps : List Payload) :
    payloadsToBits (p :: ps) = (payloadsToBits ps <<< 6) ||| p.setWidth 120 := rfl

theorem bitsToPayloads_succ (len : Nat) (b : PacketBits) :
    bitsToPayloads (len + 1) b = b.setWidth 6 :: bitsToPayloads len (b >>> 6) := rfl

theorem resetBuffer_eq (st : StreamState) :
    st.resetBuffer = { st with packetBits := 0#120, packetBitCount := 0#8 } := rfl

theorem writePayload_eq (bits : PacketBits) (c : Nat) (p : Payload) :
    writePayload bits c p = (bits &&& ~~~((0x3f#6).setWidth 120 <<< c)) ||| (p.setWidth 120 <<< c) := rfl

theorem append_eq (st : StreamState) (p : Payload) :
    st.append p = { st with packetBits := writePayload st.packetBits st.packetBitCount.toNat p
                            packetBitCount := st.packetBitCount + 6#8 } := rfl

theorem full_eq (st : StreamState) : st.full = decide (120 < st.packetBitCount.toNat + 6) := rfl

theorem typeField_eq (k : Kind) : typeField k = ⟨6, 1, .typeCode, some (.type k)⟩ := rfl

theorem branchField_eq : branchField = ⟨1, 1, .branchCode, some .branch⟩ := rfl

theorem directField_eq : directField = ⟨1, 1, .directContinue, none⟩ := rfl

theorem eventField_eq : eventField = ⟨6, 1, .eventCode, some .event⟩ := rfl

theorem countField_eq : countField = ⟨0, 2, .instructionCount, none⟩ := rfl

theorem addressField_eq : addressField = ⟨0, 4, .address, none⟩ := rfl

theorem timestampField_eq : timestampField = ⟨0, 8, .timestamp, none⟩ := rfl

theorem bufferLegal_iff (st : StreamState) : bufferLegal st ↔
    st.packetBitCount.toNat % 6 = 0 ∧ st.packetBitCount.toNat ≤ 120 ∧
      st.packetBits.toNat < 2 ^ st.packetBitCount.toNat := Iff.rfl

/-- A tail field fits a packet of `least` to 20 symbols whose bits it does not exceed (R73). -/
theorem tailFits_iff (least len lo : Nat) {k : Nat} (tail : BitVec k) :
    tailFits least len lo tail = true ↔ least ≤ len ∧ len ≤ 20 ∧ tail.toNat < 2 ^ (6 * len - lo) := by
  simp [tailFits, and_assoc]

/-- A packet 0 by its format (R170, R173, R176, R179), with the bit positions of R76 written out. -/
theorem decodePacket0_eq (k : Kind) (len : Nat) (b : PacketBits) : decodePacket0 k len b =
    if len < 2 then none
    else if typeCodeOf k ≠ some (b.extractLsb' 0 6) then none
    else match k with
    | .indirectBranch => some (.ibP0 len (b.extractLsb' 6 1) (b.extractLsb' 7 113))
    | .indirectBranchSync => some (.ibsP0 len (b.extractLsb' 6 1) (b.extractLsb' 7 1) (b.extractLsb' 8 112))
    | .sync => some (.syncP0 len (b.extractLsb' 6 1) (b.extractLsb' 7 113))
    | .correction => if b.extractLsb' 6 6 = eventCodeCORR then some (.corrP0 len (b.extractLsb' 12 108)) else none
    | .ignoring => none
    | .undetermined => none := by
  cases k <;> rfl

end Sys2Proof.Machine
end

