-- ==== Sys2Proof/Laws/State.lean ====
section
/-! SUPPORT. One lemma per field per update of the state's records. -/

namespace Sys2Proof.Machine

variable (st : StreamState) (s : State)

@[simp] theorem resetBuffer_packetBits : st.resetBuffer.packetBits = 0#120 := rfl
@[simp] theorem resetBuffer_count : st.resetBuffer.packetBitCount = 0#8 := rfl
@[simp] theorem resetBuffer_message : st.resetBuffer.message = st.message := rfl
@[simp] theorem resetBuffer_index : st.resetBuffer.messagePacketIndex = st.messagePacketIndex := rfl

@[simp] theorem append_packetBits (p : Payload) :
    (st.append p).packetBits = writePayload st.packetBits st.packetBitCount.toNat p := rfl
@[simp] theorem append_count (p : Payload) : (st.append p).packetBitCount = st.packetBitCount + 6#8 := rfl
@[simp] theorem append_message (p : Payload) : (st.append p).message = st.message := rfl
@[simp] theorem append_index (p : Payload) : (st.append p).messagePacketIndex = st.messagePacketIndex := rfl

@[simp] theorem zeroMessage_packetBits : st.zeroMessage.packetBits = st.packetBits := rfl
@[simp] theorem zeroMessage_count : st.zeroMessage.packetBitCount = st.packetBitCount := rfl
@[simp] theorem zeroMessage_message : st.zeroMessage.message = Message.zeroed st.message.kind := rfl
@[simp] theorem zeroMessage_index : st.zeroMessage.messagePacketIndex = st.messagePacketIndex := rfl

@[simp] theorem zeroed_kind (k : Kind) : (Message.zeroed k).kind = k := rfl
@[simp] theorem zeroed_branchKind (k : Kind) : (Message.zeroed k).branchKind = .undefined := rfl
@[simp] theorem zeroed_instructionCount (k : Kind) : (Message.zeroed k).instructionCount = 0#16 := rfl
@[simp] theorem zeroed_directContinue (k : Kind) : (Message.zeroed k).directContinue = 0#8 := rfl
@[simp] theorem zeroed_address (k : Kind) : (Message.zeroed k).address = 0#32 := rfl
@[simp] theorem zeroed_timestamp (k : Kind) : (Message.zeroed k).timestamp = 0#64 := rfl

@[simp] theorem setKindIndex_packetBits (k : Kind) (i : U8) : (st.setKindIndex k i).packetBits = st.packetBits := rfl
@[simp] theorem setKindIndex_count (k : Kind) (i : U8) :
    (st.setKindIndex k i).packetBitCount = st.packetBitCount := rfl
@[simp] theorem setKindIndex_message (k : Kind) (i : U8) :
    (st.setKindIndex k i).message = { st.message with kind := k } := rfl
@[simp] theorem setKindIndex_index (k : Kind) (i : U8) : (st.setKindIndex k i).messagePacketIndex = i := rfl

@[simp] theorem emit_ctx (e : List Event) : (s.emit e).ctx = s.ctx := rfl
@[simp] theorem emit_st (e : List Event) : (s.emit e).st = s.st := rfl
@[simp] theorem emit_aborted (e : List Event) : (s.emit e).aborted = s.aborted := rfl
@[simp] theorem emit_cfg (e : List Event) : (s.emit e).cfg = s.cfg := rfl
@[simp] theorem emit_wordIn (e : List Event) : (s.emit e).wordIn = s.wordIn := rfl
@[simp] theorem emit_wordStatus (e : List Event) : (s.emit e).wordStatus = s.wordStatus := rfl
@[simp] theorem emit_eventOut (e : List Event) : (s.emit e).eventOut = s.eventOut ++ e := rfl
@[simp] theorem emit_diag (e : List Event) : (s.emit e).diag = s.diag := rfl

@[simp] theorem recover_ctx (r : Reason) (k : Kind) : (recover r k s).ctx = s.ctx := rfl
@[simp] theorem recover_st (r : Reason) (k : Kind) :
    (recover r k s).st = (s.st.setKindIndex k 0#8).resetBuffer := rfl
@[simp] theorem recover_aborted (r : Reason) (k : Kind) : (recover r k s).aborted = s.aborted := rfl
@[simp] theorem recover_cfg (r : Reason) (k : Kind) : (recover r k s).cfg = s.cfg := rfl
@[simp] theorem recover_wordIn (r : Reason) (k : Kind) : (recover r k s).wordIn = s.wordIn := rfl
@[simp] theorem recover_wordStatus (r : Reason) (k : Kind) : (recover r k s).wordStatus = s.wordStatus := rfl
@[simp] theorem recover_eventOut (r : Reason) (k : Kind) : (recover r k s).eventOut = s.eventOut := rfl
@[simp] theorem recover_diag (r : Reason) (k : Kind) : (recover r k s).diag = s.diag ++ [r] := rfl

@[simp] theorem fatal_ctx : (fatal s).ctx = s.ctx := rfl
@[simp] theorem fatal_st : (fatal s).st = s.st := rfl
@[simp] theorem fatal_aborted : (fatal s).aborted = true := rfl
@[simp] theorem fatal_cfg : (fatal s).cfg = s.cfg := rfl
@[simp] theorem fatal_wordIn : (fatal s).wordIn = s.wordIn := rfl
@[simp] theorem fatal_wordStatus : (fatal s).wordStatus = s.wordStatus := rfl
@[simp] theorem fatal_eventOut : (fatal s).eventOut = s.eventOut := rfl
@[simp] theorem fatal_diag : (fatal s).diag = s.diag ++ [.trackerFailed] := rfl

@[simp] theorem resync_ctx : (resync s).ctx = s.ctx := rfl
@[simp] theorem resync_st : (resync s).st = (s.st.setKindIndex .undetermined 0#8).resetBuffer := rfl
@[simp] theorem resync_aborted : (resync s).aborted = s.aborted := rfl
@[simp] theorem resync_cfg : (resync s).cfg = s.cfg := rfl
@[simp] theorem resync_wordIn : (resync s).wordIn = s.wordIn := rfl
@[simp] theorem resync_wordStatus : (resync s).wordStatus = s.wordStatus := rfl
@[simp] theorem resync_eventOut : (resync s).eventOut = s.eventOut := rfl
@[simp] theorem resync_diag : (resync s).diag = s.diag := rfl

@[simp] theorem endMessage_ctx : (endMessage s).ctx = s.ctx := rfl
@[simp] theorem endMessage_st : (endMessage s).st = s.st.setKindIndex .undetermined 0#8 := rfl
@[simp] theorem endMessage_aborted : (endMessage s).aborted = s.aborted := rfl
@[simp] theorem endMessage_cfg : (endMessage s).cfg = s.cfg := rfl
@[simp] theorem endMessage_wordIn : (endMessage s).wordIn = s.wordIn := rfl
@[simp] theorem endMessage_wordStatus : (endMessage s).wordStatus = s.wordStatus := rfl
@[simp] theorem endMessage_eventOut : (endMessage s).eventOut = s.eventOut := rfl
@[simp] theorem endMessage_diag : (endMessage s).diag = s.diag := rfl

/-- Session creation keeps only the parameters (R260). -/
@[simp] theorem resetWith_cfg (cfg : Config) : (State.resetWith cfg).cfg = cfg := rfl
@[simp] theorem offer_wordIn (w : Word) : (s.offer w).wordIn = s.wordIn ++ [.word w] := rfl
@[simp] theorem offer_st (w : Word) : (s.offer w).st = s.st := rfl
@[simp] theorem newSession_wordIn : s.newSession.wordIn = s.wordIn := rfl
@[simp] theorem newSession_cfg : s.newSession.cfg = s.cfg := rfl
@[simp] theorem newSession_ctx : s.newSession.ctx = ⟨0#32, false⟩ := rfl
@[simp] theorem newSession_aborted : s.newSession.aborted = false := rfl

end Sys2Proof.Machine
end

