-- ==== Sys2Proof/Laws/Bits.lean ====
section
/-! SUPPORT. The bit-level laws of the wire: symbols, words, and packets as bit strings. -/

namespace Sys2Proof.Machine

@[simp] theorem symPayload_symbolOf (p : Payload) (c : Control) : symPayload (symbolOf p c) = p := by
  apply payload_ext
  intro i hi
  rw [symPayload_eq, BitVec.getLsbD_extractLsb', getLsbD_symbolOf]
  simp [hi, show ¬ (2 + i < 2) by omega]

@[simp] theorem symEop_symbolOf (p : Payload) (c : Control) : symEop (symbolOf p c) = c.getLsbD 0 := by
  rw [symEop_eq, getLsbD_symbolOf]; rfl

@[simp] theorem symEom_symbolOf (p : Payload) (c : Control) : symEom (symbolOf p c) = c.getLsbD 1 := by
  rw [symEom_eq, getLsbD_symbolOf]; rfl

@[simp] theorem symControl_symbolOf (p : Payload) (c : Control) : symControl (symbolOf p c) = c := by
  apply BitVec.eq_of_getLsbD_eq
  intro i hi
  replace hi : i < 2 := hi
  rw [symControl_eq, BitVec.getLsbD_extractLsb', getLsbD_symbolOf]
  simp [hi]

/-- A symbol is its payload and its control bits (R71). -/
theorem symbolOf_parts (b : Symbol) : symbolOf (symPayload b) (symControl b) = b := by
  apply symbol_ext
  intro i hi
  rw [getLsbD_symbolOf, symPayload_eq, symControl_eq, BitVec.getLsbD_extractLsb', BitVec.getLsbD_extractLsb']
  by_cases h : i < 2
  · simp [h]
  · simp [h, show i - 2 < 6 by omega, show 2 + (i - 2) = i by omega]

/-- The four symbols of the word that holds them (R70). -/
@[simp] theorem wordSymbols_wordOfSymbols (s0 s1 s2 s3 : Symbol) :
    wordSymbols (wordOfSymbols s0 s1 s2 s3) = [s0, s1, s2, s3] := by
  simp only [wordSymbols_eq, wordSymbol_eq, List.cons.injEq, and_true]
  refine ⟨?_, ?_, ?_, ?_⟩ <;>
  · apply symbol_ext
    intro i hi
    simp only [BitVec.getLsbD_extractLsb', getLsbD_wordOfSymbols, hi, decide_true, Bool.true_and]
    repeat' split
    all_goals first | (exfalso; omega) | (congr 1; omega)

/-- A word is the word of its four symbols (R70). -/
theorem wordOfSymbols_parts (w : Word) :
    wordOfSymbols (wordSymbol w 0) (wordSymbol w 1) (wordSymbol w 2) (wordSymbol w 3) = w := by
  apply word_ext
  intro i hi
  simp only [getLsbD_wordOfSymbols, wordSymbol_eq, BitVec.getLsbD_extractLsb', symbolBits]
  repeat' split
  all_goals
    rw [decide_eq_true (by omega), Bool.true_and]
    congr 1; omega

theorem length_bitsToPayloads (len : Nat) (b : PacketBits) : (bitsToPayloads len b).length = len := by
  induction len generalizing b with
  | zero => rfl
  | succ n ih => simp [bitsToPayloads, ih]

/-- Packet bit `6n + j` is bit `j` of payload `n` (R54). -/
theorem getLsbD_payloadsToBits (ps : List Payload) (i : Nat) :
    (payloadsToBits ps).getLsbD i = (decide (i < 120) && (ps.getD (i / 6) 0#6).getLsbD (i % 6)) := by
  induction ps generalizing i with
  | nil => simp [payloadsToBits]
  | cons p ps ih =>
    simp only [payloadsToBits_cons, BitVec.getLsbD_or, BitVec.getLsbD_shiftLeft, BitVec.getLsbD_setWidth, ih]
    by_cases h : i < 6
    · have : i / 6 = 0 := by omega
      have h2 : i % 6 = i := by omega
      simp [h, this, h2]
    · obtain ⟨k, rfl⟩ : ∃ k, i = k + 6 := ⟨i - 6, by omega⟩
      have : (k + 6) / 6 = k / 6 + 1 := by omega
      have hp : p.getLsbD (k + 6) = false := payload_high p _ (by omega)
      simp only [hp, this, List.getD_cons_succ, Nat.add_sub_cancel, Nat.add_mod_right, Bool.and_false, Bool.or_false]
      by_cases h2 : k + 6 < 120
      · simp [h2, show k < 120 by omega]
      · simp [h2]

/-- No bit of a packet stands at or above its length (R73). -/
theorem payloadsToBits_lt (ps : List Payload) :
    (payloadsToBits ps).toNat < 2 ^ (6 * ps.length) := by
  apply Nat.lt_pow_two_of_testBit
  intro i hi
  rw [← BitVec.getLsbD, getLsbD_payloadsToBits]
  rw [List.getD_eq_default _ _ (by omega), BitVec.getLsbD_zero, Bool.and_false]

/-- Cutting a packet's bits gives its payloads back. -/
theorem bitsToPayloads_payloadsToBits (ps : List Payload) (h : ps.length ≤ 20) :
    bitsToPayloads ps.length (payloadsToBits ps) = ps := by
  induction ps with
  | nil => rfl
  | cons p ps ih =>
    have hl : ps.length + 1 ≤ 20 := h
    simp only [List.length_cons, bitsToPayloads_succ, List.cons.injEq]
    constructor
    · apply payload_ext
      intro i hi
      have : i / 6 = 0 := by omega
      have h2 : i % 6 = i := by omega
      simp [getLsbD_payloadsToBits, hi, this, h2]
      omega
    · have : payloadsToBits (p :: ps) >>> 6 = payloadsToBits ps := by
        apply packetBits_ext
        intro i hi
        simp only [BitVec.getLsbD_ushiftRight, getLsbD_payloadsToBits]
        rw [show (6 + i) / 6 = i / 6 + 1 by omega, show (6 + i) % 6 = i % 6 by omega, List.getD_cons_succ]
        by_cases h3 : 6 + i < 120
        · simp [h3, hi]
        · rw [List.getD_eq_default _ _ (by omega), BitVec.getLsbD_zero, Bool.and_false, Bool.and_false]
      rw [this, ih (by omega)]

/-- Joining the payloads of a bit string gives it back, where no bit stands above them. -/
theorem payloadsToBits_bitsToPayloads (len : Nat) (b : PacketBits) (h : b.toNat < 2 ^ (6 * len)) :
    payloadsToBits (bitsToPayloads len b) = b := by
  induction len generalizing b with
  | zero =>
    have : b = 0#120 := BitVec.eq_of_toNat_eq (by simpa using h)
    rw [this]; rfl
  | succ n ih =>
    rw [bitsToPayloads_succ, payloadsToBits_cons]
    have h6 : (b >>> 6).toNat < 2 ^ (6 * n) := by
      rw [BitVec.toNat_ushiftRight, Nat.shiftRight_eq_div_pow, Nat.div_lt_iff_lt_mul (by positivity), ← pow_add]
      rwa [show 6 * n + 6 = 6 * (n + 1) by ring]
    rw [ih _ h6]
    apply packetBits_ext
    intro i hi
    simp only [BitVec.getLsbD_or, BitVec.getLsbD_shiftLeft, BitVec.getLsbD_ushiftRight, BitVec.getLsbD_setWidth, hi]
    by_cases h7 : i < 6
    · simp [h7]
    · simp [h7, show 6 + (i - 6) = i by omega]

/-- `packet_bits[c+5 : c] <- p` writes those six bits and no other (R54). -/
theorem getLsbD_writePayload (bits : PacketBits) (c : Nat) (p : Payload) (i : Nat) (hi : i < 120) :
    (writePayload bits c p).getLsbD i =
      if c ≤ i ∧ i < c + 6 then p.getLsbD (i - c) else bits.getLsbD i := by
  have h3f : ∀ k, (0x3f#6).getLsbD k = decide (k < 6) := by
    intro k
    by_cases hk : k < 6
    · have : k = 0 ∨ k = 1 ∨ k = 2 ∨ k = 3 ∨ k = 4 ∨ k = 5 := by omega
      rcases this with rfl | rfl | rfl | rfl | rfl | rfl <;> rfl
    · rw [BitVec.getLsbD_of_ge _ _ (by omega)]; simp [hk]
  simp only [writePayload_eq, BitVec.getLsbD_or, BitVec.getLsbD_and, BitVec.getLsbD_not, BitVec.getLsbD_shiftLeft,
    BitVec.getLsbD_setWidth, hi, h3f, decide_true, Bool.true_and]
  by_cases h1 : i < c
  · simp [h1, show ¬ (c ≤ i) by omega]
  · by_cases h2 : i < c + 6
    · simp [h1, h2, show c ≤ i by omega, show i - c < 6 by omega, show i - c < 120 by omega]
    · have : p.getLsbD (i - c) = false := payload_high p _ (by omega)
      simp [h1, h2, this, show ¬ (i - c < 6) by omega]

/-- Appending a payload to the bits of a packet gives the bits of the longer packet (R54). -/
theorem writePayload_payloadsToBits (ps : List Payload) (p : Payload) :
    writePayload (payloadsToBits ps) (6 * ps.length) p = payloadsToBits (ps ++ [p]) := by
  apply packetBits_ext
  intro i hi
  rw [getLsbD_writePayload _ _ _ _ hi, getLsbD_payloadsToBits, getLsbD_payloadsToBits]
  by_cases h : i < 6 * ps.length
  · have : i / 6 < ps.length := by omega
    rw [if_neg (by omega)]
    rw [List.getD_append _ _ _ _ this]
  · by_cases h2 : i < 6 * ps.length + 6
    · rw [if_pos ⟨by omega, h2⟩]
      have : i / 6 = ps.length := by omega
      have h3 : i % 6 = i - 6 * ps.length := by omega
      simp [hi, this, h3]
    · rw [if_neg (by omega)]
      have h3 : ps.getD (i / 6) 0#6 = 0#6 := List.getD_eq_default _ _ (by omega)
      have h4 : (ps ++ [p]).getD (i / 6) 0#6 = 0#6 := List.getD_eq_default _ _ (by simp; omega)
      rw [h3, h4]

end Sys2Proof.Machine
end

