-- ==== Sys2Proof/Laws/Extractor.lean ====
section
/-! SUPPORT. What the Field Extractor and the Field Table Decoder can do. -/

namespace Sys2Proof.Machine

variable (cfg : Config) (st : StreamState)

/-- A field that does not fit in what is left of the packet fails (R100). -/
theorem extract_none (off w : Nat) (h : st.packetBitCount.toNat < off + w) : extract st off w = none := by
  simp [extract, h]

/-- A field that fits is its bits, zero-extended (R100, R102). -/
theorem extract_some (off w : Nat) (h : off + w ≤ st.packetBitCount.toNat) :
    extract st off w = some ((st.packetBits.extractLsb' off w).setWidth 64) := by
  simp [extract, Nat.not_lt.mpr h]

theorem fieldWidth_fixed (f : FieldDesc) (off n : Nat) (h : f.srcBits ≠ 0) : fieldWidth f off n = f.srcBits := by
  simp [fieldWidth, h]

theorem fieldWidth_terminal (f : FieldDesc) (off n : Nat) (h : f.srcBits = 0) :
    fieldWidth f off n = min (n - off) (8 * f.dstBytes) := by
  simp [fieldWidth, h]

theorem setWidth_six_inj (x y : BitVec 6) : x.setWidth 64 = y.setWidth 64 ↔ x = y := by
  constructor
  · intro h
    have := congrArg (BitVec.setWidth 6) h
    simpa using this
  · rintro rfl; rfl

theorem setWidth_one_sixtyfour (x : BitVec 1) : (x.setWidth 64).setWidth 1 = x := by simp

/-- A bit is 0 or 1, so `V_BRANCH` accepts every branch code (R79). -/
theorem validate_branch (x : BitVec 1) :
    validate cfg (some .branch) (x.setWidth 64) = (true, .branchKind (branchCodeMap cfg x)) := by
  have h : x = 0#1 ∨ x = 1#1 := by
    revert x; decide
  rcases h with rfl | rfl <;> rfl

/-- `V_TYPE(k)` accepts the code of `k` and no other (R106). -/
theorem validate_type (k : Kind) (x : BitVec 6) :
    validate cfg (some (.type k)) (x.setWidth 64) = (decide (typeCodeOf k = some x), .kind k) := by
  cases k <;> simp [validate, typeCodeOf, setWidth_six_inj]

/-- `V_EVENT` accepts 0xa alone (R106). -/
theorem validate_event (x : BitVec 6) :
    validate cfg (some .event) (x.setWidth 64) = (decide (x = eventCodeCORR), .nothing) := by
  simp [validate, setWidth_six_inj]

/-- A field without a validator is accepted (R104). -/
theorem validate_none (raw : Raw) : validate cfg none raw = (true, .nothing) := rfl

/-- A field that does not fit ends the table with what was written so far (R104, R105). -/
theorem decodeFields_short (f : FieldDesc) (fs : List FieldDesc) (off : Nat) (cand : Option Kind) (sc : Scratch)
    (m : Message) (hf : f.srcBits ≠ 0) (h : st.packetBitCount.toNat < off + f.srcBits) :
    decodeFields cfg st (f :: fs) off cand sc m = ⟨false, cand, sc, m⟩ := by
  simp [decodeFields, fieldWidth_fixed f _ _ hf, extract_none st _ _ h]

/-- A fixed field that fits is written; a rejection ends the table, an acceptance goes on behind it (R104). -/
theorem decodeFields_fixed (f : FieldDesc) (fs : List FieldDesc) (off : Nat) (cand : Option Kind) (sc : Scratch)
    (m : Message) (hf : f.srcBits ≠ 0) (h : off + f.srcBits ≤ st.packetBitCount.toNat) (v : Raw)
    (hv : v = (st.packetBits.extractLsb' off f.srcBits).setWidth 64) :
    decodeFields cfg st (f :: fs) off cand sc m =
      if (validate cfg f.validator v).1 = true then
        decodeFields cfg st fs (off + f.srcBits) (candidateOf (validate cfg f.validator v).2 cand)
          (sc.write f.slot v) ((m.write f.slot v).writeMapped (validate cfg f.validator v).2)
      else ⟨false, cand, sc.write f.slot v, m.write f.slot v⟩ := by
  subst hv
  rw [decodeFields, fieldWidth_fixed f _ _ hf, extract_some st _ _ h]
  by_cases hb : (validate cfg f.validator ((st.packetBits.extractLsb' off f.srcBits).setWidth 64)).1 = true
  · simp [hb, hf]
  · simp [Bool.eq_false_iff.mpr hb]

/-- `Write` and `WriteMapped` never write `kind` (R107). -/
@[simp] theorem write_kind (m : Message) (slot : Slot) (raw : Raw) : (m.write slot raw).kind = m.kind := by
  cases slot <;> rfl

@[simp] theorem writeMapped_kind (m : Message) (x : Mapped) : (m.writeMapped x).kind = m.kind := by
  cases x <;> rfl

/-- A table decode never writes `kind` (R104, R165). -/
theorem decodeFields_kind (fs : List FieldDesc) (off : Nat) (cand : Option Kind) (sc : Scratch) (m : Message) :
    (decodeFields cfg st fs off cand sc m).message.kind = m.kind := by
  induction fs generalizing off cand sc m with
  | nil => rfl
  | cons f fs ih =>
    rw [decodeFields]
    split
    · rfl
    · split
      · simp
      · split
        · simp
        · rw [ih]; simp

@[simp] theorem decodeTable_kind (t : List FieldDesc) : (decodeTable cfg st t).message.kind = st.message.kind :=
  decodeFields_kind cfg st t 0 none Scratch.start st.message

/-- A table decode reads of the stream state only the buffer below the count, the count, and the message it goes on
from (R100). -/
theorem decodeFields_congr (st' : StreamState) (hc : st'.packetBitCount = st.packetBitCount)
    (hb : ∀ i, i < st.packetBitCount.toNat → st'.packetBits.getLsbD i = st.packetBits.getLsbD i)
    (fs : List FieldDesc) (off : Nat) (cand : Option Kind) (sc : Scratch) (m : Message) :
    decodeFields cfg st' fs off cand sc m = decodeFields cfg st fs off cand sc m := by
  have hx : ∀ off w, extract st' off w = extract st off w := by
    intro off w
    by_cases h : st.packetBitCount.toNat < off + w
    · rw [extract_none st _ _ h, extract_none st' _ _ (by rwa [hc])]
    · rw [extract_some st _ _ (by omega), extract_some st' _ _ (by rw [hc]; omega)]
      congr 2
      apply BitVec.eq_of_getLsbD_eq
      intro i hi
      simp only [BitVec.getLsbD_extractLsb', hi, decide_true, Bool.true_and]
      exact hb _ (by omega)
  induction fs generalizing off cand sc m with
  | nil => rfl
  | cons f fs ih => simp only [decodeFields, hx, hc, ih]

/-- Whether a table validates, and the kind it names, do not depend on the message it goes on from. -/
theorem decodeFields_ok_message (fs : List FieldDesc) (off : Nat) (cand : Option Kind) (sc : Scratch)
    (m m' : Message) :
    (decodeFields cfg st fs off cand sc m).ok = (decodeFields cfg st fs off cand sc m').ok ∧
    (decodeFields cfg st fs off cand sc m).cand = (decodeFields cfg st fs off cand sc m').cand := by
  induction fs generalizing off cand sc m m' with
  | nil => exact ⟨rfl, rfl⟩
  | cons f fs ih =>
    simp only [decodeFields]
    split
    · exact ⟨rfl, rfl⟩
    · split
      · exact ⟨rfl, rfl⟩
      · split
        · exact ⟨rfl, rfl⟩
        · exact ih _ _ _ _ _

/-- A table behind a type field whose code is not the packet's writes nothing but the scratch type code (R166). -/
theorem decodeFields_typeField (k : Kind) (fs : List FieldDesc) (cand : Option Kind) (sc : Scratch) (m : Message)
    (h : typeCodeOf k ≠ some (st.packetBits.extractLsb' 0 6) ∨ st.packetBitCount.toNat < 6) :
    (decodeFields cfg st (typeField k :: fs) 0 cand sc m).ok = false ∧
    (decodeFields cfg st (typeField k :: fs) 0 cand sc m).message = m := by
  by_cases hc : st.packetBitCount.toNat < 6
  · rw [decodeFields_short cfg st _ _ _ _ _ _ (by simp [typeField]) (by simpa [typeField] using hc)]
    exact ⟨rfl, rfl⟩
  · rw [decodeFields_fixed cfg st _ _ _ _ _ _ (by simp [typeField]) (by simp [typeField]; omega) _ rfl]
    have ht := h.resolve_right hc
    simp only [typeField, validate_type]
    rw [if_neg (by simpa using ht)]
    exact ⟨rfl, rfl⟩

end Sys2Proof.Machine
end

