-- ==== Sys2Proof/Laws/Assembler.lean ====
section
/-! SUPPORT. What the Packet Assembler can do: the cases of a symbol step, runs of symbols, and a packet fed symbol
by symbol. -/

namespace Sys2Proof.Machine

/-- An aborted session processes no symbol (R31). -/
theorem runSymbol_aborted (b : U8) (s : State) (h : s.aborted = true) : runSymbol b s = s := by
  simp [runSymbol, h]

theorem runSymbol_running (b : U8) (s : State) (h : s.aborted = false) : runSymbol b s = symbolStep b s := by
  simp [runSymbol, h]

/-- In `Ignoring` a symbol is the resync or is dropped (R138). -/
theorem symbolStep_ignoring (b : U8) (s : State) (h : s.st.message.kind = .ignoring) :
    symbolStep b s = if symEop b && symEom b then resync s else s := by
  simp [symbolStep, h]

/-- In the active state a full buffer overflows (R136). -/
theorem symbolStep_full (b : U8) (s : State) (h : s.st.message.kind ≠ .ignoring) (hf : s.st.full = true) :
    symbolStep b s = recover .overflow .ignoring s := by
  simp [symbolStep, h, hf]

/-- In the active state with room, the payload is appended, and an EOP symbol ends the packet (R131). -/
theorem symbolStep_append (b : U8) (s : State) (h : s.st.message.kind ≠ .ignoring) (hf : s.st.full = false) :
    symbolStep b s =
      if symEop b then endPacket (symEom b) { s with st := s.st.append (symPayload b) }
      else { s with st := s.st.append (symPayload b) } := by
  simp [symbolStep, h, hf]

/-- A packet whose dispatch succeeded and that does not end its message (R131). -/
theorem endPacket_ok (s : State) (st : StreamState) (h : dispatch s.cfg s.st = ⟨st, none⟩) :
    endPacket false s = { s with st := st.resetBuffer } := by
  simp [endPacket, h]

/-- A packet whose dispatch succeeded and that ends its message (R131): the tracker always succeeds (R206). -/
theorem endPacket_message (s : State) (st : StreamState) (h : dispatch s.cfg s.st = ⟨st, none⟩) :
    endPacket true s = { s with
      ctx := (interpMessage st.message s.ctx).ctx
      eventOut := s.eventOut ++ (interpMessage st.message s.ctx).events
      st := (st.setKindIndex .undetermined 0#8).resetBuffer } := by
  simp [endPacket, h, completeMessage, interpret, endMessage, State.emit]
  rfl

/-- A packet whose dispatch failed (R131, R231). -/
theorem endPacket_fail (eom : Bool) (s : State) (st : StreamState) (r : Reason)
    (h : dispatch s.cfg s.st = ⟨st, some r⟩) :
    endPacket eom s = { s with
      st := (st.setKindIndex (failureKind eom) 0#8).resetBuffer, diag := s.diag ++ [r] } := by
  simp [endPacket, h, recover, State.report]
  rfl

@[simp] theorem runSymbols_nil (s : State) : runSymbols [] s = s := rfl

@[simp] theorem runSymbols_cons (b : U8) (bs : List U8) (s : State) :
    runSymbols (b :: bs) s = runSymbols bs (runSymbol b s) := rfl

theorem runSymbols_append (bs cs : List U8) (s : State) :
    runSymbols (bs ++ cs) s = runSymbols cs (runSymbols bs s) := by
  induction bs generalizing s with
  | nil => rfl
  | cons b bs ih => exact ih (runSymbol b s)

/-- `s` with the payloads `qs` of a packet held in its buffer. -/
def State.holding (s : State) (qs : List Payload) : State :=
  { s with st := { s.st with
      packetBits := payloadsToBits qs, packetBitCount := BitVec.ofNat 8 (6 * qs.length) } }

theorem toNat_holding_count (s : State) (qs : List Payload) (h : qs.length ≤ 20) :
    (s.holding qs).st.packetBitCount.toNat = 6 * qs.length := by
  simp only [State.holding, BitVec.toNat_ofNat]
  omega

/-- At the start of a packet nothing is held. -/
theorem holding_nil (s : State) (h : s.PacketStart) : s.holding [] = s := by
  cases s with
  | mk ctx st aborted cfg wordIn wordStatus eventOut diag =>
    cases st
    have h1 := h.count
    have h2 := h.bits
    simp only at h1 h2
    subst h1 h2
    rfl

theorem full_holding (s : State) (qs : List Payload) (h : qs.length < 20) : (s.holding qs).st.full = false := by
  simp only [StreamState.full, toNat_holding_count s qs (by omega), packetCapacity, payloadBits,
    decide_eq_false_iff_not]
  omega

/-- The append of R131 on a packet held in part (R54). -/
theorem append_holding (s : State) (qs : List Payload) (p : Payload) (h : qs.length < 20) :
    { s.holding qs with st := (s.holding qs).st.append p } = s.holding (qs ++ [p]) := by
  have hc : (s.holding qs).st.packetBitCount + 6#8 = BitVec.ofNat 8 (6 * (qs ++ [p]).length) := by
    apply BitVec.eq_of_toNat_eq
    rw [BitVec.toNat_add, toNat_holding_count s qs (by omega)]
    simp only [List.length_append, List.length_singleton, BitVec.toNat_ofNat]
    omega
  have hb : writePayload (s.holding qs).st.packetBits (s.holding qs).st.packetBitCount.toNat p =
      payloadsToBits (qs ++ [p]) := by
    rw [toNat_holding_count s qs (by omega)]
    exact writePayload_payloadsToBits qs p
  simp only [StreamState.append, hc, hb]
  rfl

/-- A packet fed symbol by symbol is a dispatch of its bit string (R54, R73, R131). -/
theorem runSymbols_packetSymbols (last : BitVec 2) (hl : last.getLsbD 0 = true) (s : State)
    (hr : s.aborted = false) (ha : s.st.message.kind ≠ .ignoring) (qs ps : List Payload) (hne : ps ≠ [])
    (hlen : qs.length + ps.length ≤ 20) :
    runSymbols (packetSymbols last ps) (s.holding qs) = endPacket (last.getLsbD 1) (s.holding (qs ++ ps)) := by
  induction ps generalizing qs with
  | nil => exact absurd rfl hne
  | cons p ps ih =>
    have hq : qs.length < 20 := by simp only [List.length_cons] at hlen; omega
    have hstep : ∀ c : BitVec 2, runSymbol (symbolOf p c) (s.holding qs) =
        if c.getLsbD 0 = true then endPacket (c.getLsbD 1) (s.holding (qs ++ [p])) else s.holding (qs ++ [p]) := by
      intro c
      rw [runSymbol_running _ _ (by exact hr), symbolStep_append _ _ (by exact ha) (full_holding s qs hq),
        symPayload_symbolOf, append_holding s qs p hq, symEop_symbolOf, symEom_symbolOf]
    cases ps with
    | nil =>
      simp only [packetSymbols, runSymbols_cons, runSymbols_nil]
      rw [hstep, if_pos hl]
    | cons q ps =>
      simp only [packetSymbols, runSymbols_cons]
      rw [hstep, if_neg (by decide), ih (qs ++ [p]) (by simp) (by simp at hlen ⊢; omega), List.append_assoc]
      rfl

/-- A whole packet from the start of a packet (R73, R137). -/
theorem runSymbols_packet (last : BitVec 2) (hl : last.getLsbD 0 = true) (s : State) (hs : s.PacketStart)
    (ps : List Payload) (hne : ps ≠ []) (hlen : ps.length ≤ 20) :
    runSymbols (packetSymbols last ps) s = endPacket (last.getLsbD 1) (s.holding ps) := by
  have h := runSymbols_packetSymbols last hl s hs.running hs.active [] ps hne (by simpa using hlen)
  rwa [holding_nil s hs] at h

end Sys2Proof.Machine
end

