-- ==== Sys2Proof/Laws/Dispatcher.lean ====
section
/-! SUPPORT. What the Message Type Dispatcher can do: one spec lemma per operation. -/

namespace Sys2Proof.Machine

variable (cfg : Config)

/-- The trials either take the first candidate whose table validates, with the writes of the failed trials before it
in the message, or find none: then only message fields other than `kind` have changed (R160, R162, R165). -/
theorem tryCandidates_cases (ks : List Kind) (st : StreamState) :
    (∃ k ∈ ks, ∃ m : Message, m.kind = st.message.kind ∧
      (decodeTable cfg { st with message := m } (table k 0)).ok = true ∧
      tryCandidates cfg ks st =
        ⟨({ st with message := (decodeTable cfg { st with message := m } (table k 0)).message } :
          StreamState).setKindIndex ((decodeTable cfg { st with message := m } (table k 0)).cand.getD k) 1#8, none⟩) ∨
    (∃ m : Message, m.kind = st.message.kind ∧
      tryCandidates cfg ks st = ⟨{ st with message := m }, some .noKind⟩) := by
  induction ks generalizing st with
  | nil => exact .inr ⟨st.message, rfl, rfl⟩
  | cons k ks ih =>
    by_cases h : (decodeTable cfg st (table k 0)).ok = true
    · exact .inl ⟨k, by simp, st.message, rfl, h, by simp only [tryCandidates]; rw [if_pos h]⟩
    · have e : tryCandidates cfg (k :: ks) st =
          tryCandidates cfg ks { st with message := (decodeTable cfg st (table k 0)).message } := by
        simp only [tryCandidates]; rw [if_neg h]
      rw [e]
      rcases ih { st with message := (decodeTable cfg st (table k 0)).message } with
        ⟨l, hl, m, hm, hok, hr⟩ | ⟨m, hm, hr⟩
      · exact .inl ⟨l, by simp [hl], m, by rw [hm]; simp, hok, hr⟩
      · exact .inr ⟨m, by rw [hm]; simp, hr⟩

/-- A packet of a determined kind: the table of its index is decoded and validates, or fails, or there is none left
(R160, R163, R164). -/
theorem dispatchLater_cases (st : StreamState) :
    (st.messagePacketIndex.toNat < maxPackets st.message.kind ∧
      (decodeTable cfg st (table st.message.kind st.messagePacketIndex.toNat)).ok = true ∧
      dispatchLater cfg st = ⟨{ st with
        message := (decodeTable cfg st (table st.message.kind st.messagePacketIndex.toNat)).message
        messagePacketIndex := st.messagePacketIndex + 1#8 }, none⟩) ∨
    (st.messagePacketIndex.toNat < maxPackets st.message.kind ∧
      (decodeTable cfg st (table st.message.kind st.messagePacketIndex.toNat)).ok = false ∧
      dispatchLater cfg st = dispatchFailure .packetMismatch { st with
        message := (decodeTable cfg st (table st.message.kind st.messagePacketIndex.toNat)).message }) ∨
    (maxPackets st.message.kind ≤ st.messagePacketIndex.toNat ∧
      dispatchLater cfg st = dispatchFailure .excessPacket st) := by
  unfold dispatchLater
  by_cases h : st.messagePacketIndex.toNat < maxPackets st.message.kind
  · cases hok : (decodeTable cfg st (table st.message.kind st.messagePacketIndex.toNat)).ok
    · exact .inr (.inl ⟨h, rfl, by rw [if_pos h]; simp [hok]⟩)
    · exact .inl ⟨h, rfl, by rw [if_pos h]; simp [hok]⟩
  · exact .inr (.inr ⟨by omega, by rw [if_neg h]⟩)

/-- In `Undetermined` the dispatcher tries the candidates on a zeroed message (R160, R161). -/
theorem dispatch_undetermined (st : StreamState) (h : st.message.kind = .undetermined) :
    dispatch cfg st = tryCandidates cfg priority st.zeroMessage := if_pos h

/-- In a determined kind it decodes the next packet (R160). -/
theorem dispatch_determined (st : StreamState) (h : st.message.kind ≠ .undetermined) :
    dispatch cfg st = dispatchLater cfg st := if_neg h

/-- The dispatcher fails for one of three reasons (R160, R231). -/
theorem dispatch_reason (st : StreamState) (r : Reason) (h : (dispatch cfg st).failure = some r) :
    r = .noKind ∨ r = .packetMismatch ∨ r = .excessPacket := by
  by_cases hu : st.message.kind = .undetermined
  · rw [dispatch_undetermined cfg st hu] at h
    rcases tryCandidates_cases cfg priority st.zeroMessage with ⟨k, _, m, _, _, e⟩ | ⟨m, _, e⟩ <;> rw [e] at h <;>
      cases h
    exact .inl rfl
  · rw [dispatch_determined cfg st hu] at h
    rcases dispatchLater_cases cfg st with ⟨_, _, e⟩ | ⟨_, _, e⟩ | ⟨_, e⟩ <;> rw [e] at h <;> cases h
    · exact .inr (.inl rfl)
    · exact .inr (.inr rfl)

/-- An excess packet leaves every message field but `kind` as it was (R164, R234). -/
theorem dispatch_excessPacket (st : StreamState) (h : (dispatch cfg st).failure = some .excessPacket) :
    dispatch cfg st = dispatchFailure .excessPacket st := by
  by_cases hu : st.message.kind = .undetermined
  · rw [dispatch_undetermined cfg st hu] at h
    rcases tryCandidates_cases cfg priority st.zeroMessage with ⟨k, _, m, _, _, e⟩ | ⟨m, _, e⟩ <;> rw [e] at h <;>
      cases h
  · rw [dispatch_determined cfg st hu] at h ⊢
    rcases dispatchLater_cases cfg st with ⟨_, _, e⟩ | ⟨_, _, e⟩ | ⟨_, e⟩
    · rw [e] at h; cases h
    · rw [e] at h; cases h
    · exact e

/-- Every packet 0 table of a candidate begins with its type field (R168). -/
theorem table_zero_typeField (k : Kind) (h : k ∈ priority) : ∃ fs, table k 0 = typeField k :: fs := by
  simp [priority] at h
  rcases h with rfl | rfl | rfl | rfl <;> exact ⟨_, rfl⟩

/-- A candidate whose type code is not the packet's is passed over without a trace in the message (R166). -/
theorem tryCandidates_skip (st : StreamState) (k : Kind) (ks : List Kind) (hk : k ∈ priority)
    (h : typeCodeOf k ≠ some (st.packetBits.extractLsb' 0 6)) :
    tryCandidates cfg (k :: ks) st = tryCandidates cfg ks st := by
  obtain ⟨fs, hfs⟩ := table_zero_typeField k hk
  have := decodeFields_typeField cfg st k fs none Scratch.start st.message (.inl h)
  simp only [tryCandidates, hfs, decodeTable, this]
  simp

/-- Whether a table validates does not depend on the message it starts from (R104). -/
theorem decodeTable_ok_message (st : StreamState) (m : Message) (t : List FieldDesc) :
    (decodeTable cfg { st with message := m } t).ok = (decodeTable cfg st t).ok := by
  rw [decodeTable, decodeTable, decodeFields_congr cfg st { st with message := m } rfl (fun _ _ => rfl)]
  exact (decodeFields_ok_message cfg st t 0 none Scratch.start m st.message).1

end Sys2Proof.Machine
end

