-- ==== Sys2Proof/Laws/Encoding.lean ====
section
/-! SUPPORT. The layouts of R76 as appended fields, and the payloads of a packet instruction. -/

namespace Sys2Proof.Machine

/-- The high part of two appended fields. -/
theorem extractLsb'_append_high {n k : Nat} (x : BitVec n) (y : BitVec k) : (x ++ y).extractLsb' k n = x := by
  apply BitVec.eq_of_getLsbD_eq
  intro i hi
  simp only [BitVec.getLsbD_extractLsb', BitVec.getLsbD_append, hi]
  simp

/-- The low part of two appended fields. -/
theorem extractLsb'_append_low {n k : Nat} (x : BitVec n) (y : BitVec k) : (x ++ y).extractLsb' 0 k = y := by
  apply BitVec.eq_of_getLsbD_eq
  intro i hi
  simp only [BitVec.getLsbD_extractLsb', BitVec.getLsbD_append, hi]
  simp [hi]

/-- Reading past the low one of two appended fields reads the high one. -/
theorem extractLsb'_append_skip {n k : Nat} (x : BitVec n) (y : BitVec k) (a w : Nat) :
    (x ++ y).extractLsb' (k + a) w = x.extractLsb' a w := by
  apply BitVec.eq_of_getLsbD_eq
  intro i hi
  simp only [BitVec.getLsbD_extractLsb', BitVec.getLsbD_append, hi]
  simp [show ¬ k + a + i < k by omega, show k + a + i - k = a + i by omega]

/-- Two adjoining fields read apart and appended are the field over both. -/
theorem extractLsb'_join {n c : Nat} (b : BitVec n) (lo a w : Nat) (e : lo + a = c) :
    b.extractLsb' c w ++ b.extractLsb' lo a = b.extractLsb' lo (w + a) := by
  subst e
  apply BitVec.eq_of_getLsbD_eq
  intro i hi
  simp only [BitVec.getLsbD_append, BitVec.getLsbD_extractLsb', hi]
  by_cases h : i < a
  · simp [h]
  · simp [h, show i - a < w by omega, show lo + a + (i - a) = lo + i by omega]

/-- Appending a field of `k` bits below a value of `e` bits gives a value of `e + k` bits. -/
theorem toNat_append_lt {n k : Nat} (x : BitVec n) (y : BitVec k) (e : Nat) (hx : x.toNat < 2 ^ e) :
    (x ++ y).toNat < 2 ^ (e + k) := by
  rw [BitVec.toNat_append, ← Nat.shiftLeft_add_eq_or_of_lt y.isLt, Nat.shiftLeft_eq, pow_add]
  have hy := y.isLt
  have h2 : (x.toNat + 1) * 2 ^ k ≤ 2 ^ e * 2 ^ k := Nat.mul_le_mul_right _ hx
  rw [add_mul] at h2
  omega

/-- The bits of `b` from `lo` on, where `b` has no bit at or above `e`. -/
theorem toNat_extractLsb'_lt (b : PacketBits) (e : Nat) (h : b.toNat < 2 ^ e) (lo w : Nat) (hle : lo ≤ e) :
    (b.extractLsb' lo w).toNat < 2 ^ (e - lo) := by
  rw [BitVec.extractLsb'_toNat, Nat.shiftRight_eq_div_pow]
  refine lt_of_le_of_lt (Nat.mod_le _ _) ?_
  rw [Nat.div_lt_iff_lt_mul (by positivity), ← pow_add, Nat.sub_add_cancel hle]
  exact h

/-- A terminal field read from a packet of `n` bits whose bits from `lo` on are `x`: what remains of the packet, cut to
the destination, is `x` cut to the destination (R76, R103). -/
theorem bitSlice_terminal (b : PacketBits) (lo n dst w : Nat) (x : BitVec w) (hx : b.extractLsb' lo w = x)
    (hlt : x.toNat < 2 ^ (n - lo)) (hd : dst ≤ w) :
    (bitSlice b lo (min n (lo + dst))).setWidth dst = x.setWidth dst := by
  subst hx
  apply BitVec.eq_of_getLsbD_eq
  intro i hi
  simp only [bitSlice, BitVec.getLsbD_setWidth, BitVec.getLsbD_extractLsb', hi, decide_true, Bool.true_and]
  by_cases h : i < min n (lo + dst) - lo
  · simp [h, show i < w by omega]
  · have h0 : (b.extractLsb' lo w).getLsbD i = false := by
      rw [BitVec.getLsbD]
      apply Nat.testBit_lt_two_pow
      exact lt_of_lt_of_le hlt (Nat.pow_le_pow_right (by decide) (by omega))
    rw [BitVec.getLsbD_extractLsb'] at h0
    simp only [h, decide_false, Bool.false_and]
    simpa [show i < w by omega] using h0.symm

/-- A well-formed packet instruction has no bit at or above its length (R73). -/
theorem toNat_packetBitsOf_lt (i : Instr) (h : i.WellFormed) :
    (packetBitsOf i).toNat < 2 ^ (6 * packetLenOf i) := by
  cases i <;> simp [Instr.WellFormed, Instr.wellFormed, tailFits] at h <;> simp only [packetBitsOf, packetLenOf]
  case ibP0 len bc count =>
    have := toNat_append_lt (count ++ bc) typeIB _ (toNat_append_lt count bc _ h.2)
    rwa [show 6 * len - 7 + 1 + 6 = 6 * len by omega] at this
  case ibsP0 len dc bc count =>
    have := toNat_append_lt (count ++ bc ++ dc) typeIBS _ (toNat_append_lt _ dc _ (toNat_append_lt count bc _ h.2))
    rwa [show 6 * len - 8 + 1 + 1 + 6 = 6 * len by omega] at this
  case syncP0 len dc count =>
    have := toNat_append_lt (count ++ dc) typeSYNC _ (toNat_append_lt count dc _ h.2)
    rwa [show 6 * len - 7 + 1 + 6 = 6 * len by omega] at this
  case corrP0 len count =>
    have := toNat_append_lt (count ++ eventCodeCORR) typeCORR _ (toNat_append_lt count eventCodeCORR _ h.2)
    rwa [show 6 * len - 12 + 6 + 6 = 6 * len by omega] at this
  all_goals first | decide | exact h.2

/-- The payloads of a well-formed packet instruction hold its bits. -/
theorem payloadsToBits_packetPayloads (i : Instr) (h : i.WellFormed) :
    payloadsToBits (packetPayloads i) = packetBitsOf i :=
  payloadsToBits_bitsToPayloads _ _ (toNat_packetBitsOf_lt i h)

/-- A packet instruction has as many payloads as its length says (R73). -/
@[simp] theorem length_packetPayloads (i : Instr) : (packetPayloads i).length = packetLenOf i :=
  length_bitsToPayloads _ _

end Sys2Proof.Machine
end

