-- ==== Sys2Proof/Laws/PerInstr.lean ====
section
/-! SUPPORT. Statements about every instruction as syntax, one lemma per constructor: what the encoder writes for a
well-formed instruction is a code the wire can carry (R70, R71, R73). -/

namespace Sys2Proof.Laws.EncodeWf

open Sys2Proof.Machine

/-- The encoding of a well-formed instruction is well formed. -/
def Statement (i : Instr) : Prop := i.WellFormed → (encode i).WellFormed

/-- A packet of 1 to 20 symbols is a code the wire can carry. -/
theorem of_packet (i : Instr) (he : encode i = .packet (packetPayloads i)) (h1 : 1 ≤ packetLenOf i)
    (h20 : packetLenOf i ≤ 20) : (encode i).WellFormed := by
  rw [he]
  simp [Code.WellFormed, Code.wellFormed, h1, h20]

/-- The bounds on the length that `tailFits` states. -/
theorem bounds {least len lo k : Nat} {tail : BitVec k} (h : tailFits least len lo tail = true) :
    least ≤ len ∧ len ≤ 20 := by
  simp [tailFits] at h
  exact h.1

theorem word (s0 s1 s2 s3 : U8) : Statement (.word s0 s1 s2 s3) := fun _ => rfl
theorem symData (p : Payload) : Statement (.symData p) := fun _ => rfl
theorem symEop (p : Payload) : Statement (.symEop p) := fun _ => rfl
theorem symEom (p : Payload) : Statement (.symEom p) := fun _ => rfl
theorem symEopm (p : Payload) : Statement (.symEopm p) := fun _ => rfl

theorem ibP0 (len : Nat) (bc : BitVec 1) (c : BitVec 113) : Statement (.ibP0 len bc c) := fun h =>
  have hb : 2 ≤ len ∧ len ≤ 20 := bounds (lo := 7) (tail := c) h
  of_packet _ rfl (show 1 ≤ len by omega) hb.2

theorem ibP1 (len : Nat) (a : PacketBits) : Statement (.ibP1 len a) := fun h =>
  have hb := bounds (lo := 0) (tail := a) h
  of_packet _ rfl hb.1 hb.2

theorem ibP2 (len : Nat) (t : PacketBits) : Statement (.ibP2 len t) := fun h =>
  have hb := bounds (lo := 0) (tail := t) h
  of_packet _ rfl hb.1 hb.2

theorem ibsP0 (len : Nat) (dc bc : BitVec 1) (c : BitVec 112) : Statement (.ibsP0 len dc bc c) := fun h =>
  have hb : 2 ≤ len ∧ len ≤ 20 := bounds (lo := 8) (tail := c) h
  of_packet _ rfl (show 1 ≤ len by omega) hb.2

theorem ibsP1 (len : Nat) (a : PacketBits) : Statement (.ibsP1 len a) := fun h =>
  have hb := bounds (lo := 0) (tail := a) h
  of_packet _ rfl hb.1 hb.2

theorem ibsP2 (len : Nat) (t : PacketBits) : Statement (.ibsP2 len t) := fun h =>
  have hb := bounds (lo := 0) (tail := t) h
  of_packet _ rfl hb.1 hb.2

theorem syncP0 (len : Nat) (dc : BitVec 1) (c : BitVec 113) : Statement (.syncP0 len dc c) := fun h =>
  have hb : 2 ≤ len ∧ len ≤ 20 := bounds (lo := 7) (tail := c) h
  of_packet _ rfl (show 1 ≤ len by omega) hb.2

theorem syncP1 (len : Nat) (a : PacketBits) : Statement (.syncP1 len a) := fun h =>
  have hb := bounds (lo := 0) (tail := a) h
  of_packet _ rfl hb.1 hb.2

theorem syncP2 (len : Nat) (t : PacketBits) : Statement (.syncP2 len t) := fun h =>
  have hb := bounds (lo := 0) (tail := t) h
  of_packet _ rfl hb.1 hb.2

theorem corrP0 (len : Nat) (c : BitVec 108) : Statement (.corrP0 len c) := fun h =>
  have hb : 2 ≤ len ∧ len ≤ 20 := bounds (lo := 12) (tail := c) h
  of_packet _ rfl (show 1 ≤ len by omega) hb.2

theorem corrP1 (len : Nat) (t : PacketBits) : Statement (.corrP1 len t) := fun h =>
  have hb := bounds (lo := 0) (tail := t) h
  of_packet _ rfl hb.1 hb.2

end Sys2Proof.Laws.EncodeWf
end

