-- ==== Sys2Proof/Laws/Step.lean ====
section
/-! SUPPORT. What a symbol, a word and a step can do, once each, for every later proof to cite; and the two
inductions, over a run of symbols and over a step. -/

namespace Sys2Proof.Machine

theorem full_eq_true_iff (st : StreamState) : st.full = true ↔ 120 < st.packetBitCount.toNat + 6 := by
  rw [full_eq, decide_eq_true_iff]

/-- A symbol is without effect, or resynchronizes, or overflows, or meets the active state with room (R131). -/
theorem runSymbol_cases (b : U8) (s : State) :
    runSymbol b s = s ∨
    (s.aborted = false ∧ s.st.message.kind = .ignoring ∧ symEop b = true ∧ symEom b = true ∧
      runSymbol b s = resync s) ∨
    (s.aborted = false ∧ s.st.message.kind ≠ .ignoring ∧ ¬ s.st.packetBitCount.toNat + 6 ≤ 120 ∧
      runSymbol b s = recover .overflow .ignoring s) ∨
    (s.aborted = false ∧ s.st.message.kind ≠ .ignoring ∧ s.st.packetBitCount.toNat + 6 ≤ 120) := by
  by_cases ha : s.aborted = true
  · exact .inl (runSymbol_aborted _ _ ha)
  have ha : s.aborted = false := by simpa using ha
  by_cases hi : s.st.message.kind = .ignoring
  · rw [runSymbol_running _ _ ha, symbolStep_ignoring _ _ hi]
    by_cases h : (symEop b && symEom b) = true
    · rw [if_pos h]
      simp at h
      exact .inr (.inl ⟨ha, hi, h.1, h.2, rfl⟩)
    · rw [if_neg h]
      exact .inl rfl
  by_cases hf : 120 < s.st.packetBitCount.toNat + 6
  · exact .inr (.inr (.inl ⟨ha, hi, by omega,
      by rw [runSymbol_running _ _ ha, symbolStep_full _ _ hi ((full_eq_true_iff _).2 hf)]⟩))
  · exact .inr (.inr (.inr ⟨ha, hi, by omega⟩))

/-- In the active state with room: an append, the end of a packet, the end of a message, or a failed dispatch
(R131). -/
theorem runSymbol_active_cases (b : U8) (s : State) (h1 : s.aborted = false) (h2 : s.st.message.kind ≠ .ignoring)
    (h3 : s.st.packetBitCount.toNat + 6 ≤ 120) :
    (symEop b = false ∧ runSymbol b s = { s with st := s.st.append (symPayload b) }) ∨
    (symEop b = true ∧ symEom b = false ∧ ∃ st, dispatch s.cfg (s.st.append (symPayload b)) = ⟨st, none⟩ ∧
      runSymbol b s = { s with st := st.resetBuffer }) ∨
    (symEop b = true ∧ symEom b = true ∧ ∃ st, dispatch s.cfg (s.st.append (symPayload b)) = ⟨st, none⟩ ∧
      runSymbol b s = { s with
        ctx := (interpMessage st.message s.ctx).ctx
        eventOut := s.eventOut ++ (interpMessage st.message s.ctx).events
        st := (st.setKindIndex .undetermined 0#8).resetBuffer }) ∨
    (symEop b = true ∧ ∃ st r, dispatch s.cfg (s.st.append (symPayload b)) = ⟨st, some r⟩ ∧
      runSymbol b s = { s with
        st := (st.setKindIndex (failureKind (symEom b)) 0#8).resetBuffer, diag := s.diag ++ [r] }) := by
  rw [runSymbol_running _ _ h1, symbolStep_append _ _ h2 (by rw [← Bool.not_eq_true, full_eq_true_iff]; omega)]
  cases e : symEop b
  · exact .inl ⟨rfl, by simp⟩
  · rcases hd : dispatch s.cfg (s.st.append (symPayload b)) with ⟨st, _ | r⟩
    · cases e2 : symEom b
      · exact .inr (.inl ⟨rfl, rfl, st, rfl, by simpa using endPacket_ok _ _ hd⟩)
      · exact .inr (.inr (.inl ⟨rfl, rfl, st, rfl, by simpa using endPacket_message _ _ hd⟩))
    · exact .inr (.inr (.inr ⟨rfl, st, r, rfl, by simpa using endPacket_fail _ _ _ _ hd⟩))

/-- What every symbol keeps, every run of symbols keeps. -/
theorem runSymbols_preserves (P : State → Prop) (hP : ∀ b s, P s → P (runSymbol b s)) (bs : List U8) (s : State)
    (h : P s) : P (runSymbols bs s) := by
  induction bs generalizing s with
  | nil => exact h
  | cons b bs ih => exact ih _ (hP b s h)

/-- A word is refused without a state change, or its four symbols run (R130). -/
theorem acceptWord_cases (w : Word) (s : State) :
    (s.aborted = true ∧ acceptWord w s = { s with wordStatus := .refused }) ∨
    (s.aborted = false ∧ acceptWord w s = { runSymbols (wordSymbols w) s with wordStatus := .accepted }) := by
  cases h : s.aborted
  · exact .inr ⟨rfl, by simp [acceptWord, h]⟩
  · exact .inl ⟨rfl, by simp [acceptWord, h]⟩

/-- Every instruction runs some code: a word, a symbol or a packet. -/
theorem exec_eq_runCode (i : Instr) (s : State) : ∃ c, exec i s = .next (runCode c s) := by
  refine ⟨encode i, ?_⟩
  cases i <;> rfl

/-- What every symbol keeps, and does not look at the ports, every code keeps. -/
theorem runCode_preserves (P : State → Prop) (hP : ∀ b s, P s → P (runSymbol b s))
    (hw : ∀ s ws, P s → P { s with wordStatus := ws }) (c : Code) (s : State) (h : P s) : P (runCode c s) := by
  cases c with
  | word w =>
    show P (acceptWord w s)
    rcases acceptWord_cases w s with ⟨_, e⟩ | ⟨_, e⟩ <;> rw [e]
    · exact hw _ _ h
    · exact hw _ _ (runSymbols_preserves P hP _ _ h)
  | symbol b => exact hP _ _ h
  | packet ps => exact runSymbols_preserves P hP _ _ h

/-- What every symbol keeps, and does not look at the input port, every step keeps. -/
theorem step_preserves (P : State → Prop) (hP : ∀ b s, P s → P (runSymbol b s))
    (hw : ∀ s ws, P s → P { s with wordStatus := ws }) (hi : ∀ s cs, P s → P { s with wordIn := cs })
    (s t : State) (h : P s) (hst : step s = .next t) : P t := by
  simp only [step] at hst
  split at hst
  · cases hst; exact h
  · split at hst
    · rename_i i _
      obtain ⟨c, e⟩ := exec_eq_runCode i { s with wordIn := _ }
      rw [e] at hst
      cases hst
      exact runCode_preserves P hP hw _ _ (hi _ _ h)
    · cases hst
      exact runCode_preserves P hP hw _ _ (hi _ _ h)

/-- One interpretation emits at most one event (R207). -/
theorem length_interpMessage_events (m : Message) (old : TrackingContext) :
    (interpMessage m old).events.length ≤ 1 := by
  unfold interpMessage
  split <;> simp [interpIB, interpIBS, interpSYNC, interpCORR]
  split <;> simp

/-- One interpretation leaves `valid` true exactly if it was or an event is emitted (R22, R210). -/
theorem interpMessage_valid (m : Message) (old : TrackingContext) :
    (interpMessage m old).ctx.valid = true ↔ old.valid = true ∨ (interpMessage m old).events ≠ [] := by
  rcases old with ⟨a, v⟩
  cases hk : m.kind <;> cases v <;> simp [interpMessage, hk, interpIB, interpIBS, interpSYNC, interpCORR, nextValid]

/-- The whole of a packet instruction at the start of a packet: its bits in the buffer, then the end of a packet
(R54, R73). -/
theorem runSymbols_packetPayloads (i : Instr) (hw : i.WellFormed) (hl : 1 ≤ packetLenOf i)
    (hu : packetLenOf i ≤ 20) (s : State) (hs : s.PacketStart) (last : BitVec 2) (hlast : last.getLsbD 0 = true) :
    runSymbols (packetSymbols last (packetPayloads i)) s =
      endPacket (last.getLsbD 1) { s with st := { s.st with
        packetBits := packetBitsOf i, packetBitCount := BitVec.ofNat 8 (6 * packetLenOf i) } } := by
  have hll := length_packetPayloads i
  rw [runSymbols_packet last hlast s hs _ (by intro h; rw [h] at hll; simp at hll; omega) (by omega)]
  simp only [State.holding, payloadsToBits_packetPayloads i hw, hll]

end Sys2Proof.Machine
end

