-- ==== Sys2Proof/Tests/Slice0.lean ====
section
/-! SUPPORT. The model's own tests. Expected values come from spec/95_test_vectors.md (ids E, A, D, T, W, R, X), from
the worked symbols of R132 to R135 and the examples of R170 to R180, or are counted by hand from the layouts of R76.
The second half shows, for each obligation with hypotheses, values that meet them all. -/

namespace Sys2Proof.Tests

open Sys2Proof.Machine

/-! ## Helpers -/

/-- The state after an outcome; the tests use it on next states only (`test_nothing_stops`). -/
def stateOf : Host.Outcome State Fault Refusal → State
  | .next s => s
  | .fault f => nomatch f
  | .refused _ => State.reset

/-- The reset state with one unit offered. -/
def offered (c : Code) : State := { State.reset with wordIn := [c] }

/-- The reset state waiting for packet `ix` of a message of kind `k`. -/
def waiting (k : Kind) (ix : U8) : State := { State.reset with st := State.reset.st.setKindIndex k ix }

/-- The reset state with `n` bits `b` of a packet held. -/
def held (b : PacketBits) (n : U8) : State :=
  { State.reset with st := { State.reset.st with packetBits := b, packetBitCount := n } }

/-- The stream state of `held`. -/
def packet (b : PacketBits) (n : U8) : StreamState := (held b n).st

/-- The reset state with another context. -/
def tracking (a : Address) (v : Bool) : State := { State.reset with ctx := ⟨a, v⟩ }

/-- A state after an abort (R31; W5). -/
def abortedState : State := { State.reset with aborted := true }

/-- A message of a kind with the fields the tracker reads (R25). -/
def message (k : Kind) (bk : BranchKind) (count : InstructionCount) (a : Address) (ts : Timestamp) : Message :=
  ⟨k, bk, count, 0#8, a, ts⟩

/-- Kind, index and count: what the spec's vectors give of an end state. -/
def place (s : State) : Kind × Nat × Nat :=
  (s.st.message.kind, s.st.messagePacketIndex.toNat, s.st.packetBitCount.toNat)

/-! ## WellFormed refuses an ill-formed term, for each check -/

theorem smoke_ibP0_short : (Instr.ibP0 1 0#1 0#113).wellFormed = false := by decide
theorem smoke_ibP0_long : (Instr.ibP0 21 0#1 0#113).wellFormed = false := by decide
theorem smoke_ibP0_tail : (Instr.ibP0 2 0#1 0x20#113).wellFormed = false := by decide
theorem smoke_ibP1_empty : (Instr.ibP1 0 0#120).wellFormed = false := by decide
theorem smoke_ibP1_tail : (Instr.ibP1 1 0x40#120).wellFormed = false := by decide
theorem smoke_ibP2_long : (Instr.ibP2 21 0#120).wellFormed = false := by decide
theorem smoke_ibsP0_short : (Instr.ibsP0 1 0#1 0#1 0#112).wellFormed = false := by decide
theorem smoke_ibsP0_tail : (Instr.ibsP0 2 0#1 0#1 0x10#112).wellFormed = false := by decide
theorem smoke_ibsP1_empty : (Instr.ibsP1 0 0#120).wellFormed = false := by decide
theorem smoke_ibsP2_tail : (Instr.ibsP2 2 0x1000#120).wellFormed = false := by decide
theorem smoke_syncP0_short : (Instr.syncP0 1 0#1 0#113).wellFormed = false := by decide
theorem smoke_syncP0_tail : (Instr.syncP0 2 0#1 0x20#113).wellFormed = false := by decide
theorem smoke_syncP1_long : (Instr.syncP1 21 0#120).wellFormed = false := by decide
theorem smoke_syncP2_empty : (Instr.syncP2 0 0#120).wellFormed = false := by decide
theorem smoke_corrP0_short : (Instr.corrP0 1 0#108).wellFormed = false := by decide
theorem smoke_corrP0_tail : (Instr.corrP0 2 1#108).wellFormed = false := by decide
theorem smoke_corrP1_tail : (Instr.corrP1 1 0x40#120).wellFormed = false := by decide
theorem smoke_packet_empty : (Code.packet []).wellFormed = false := by decide
theorem smoke_packet_long : (Code.packet (List.replicate 21 0#6)).wellFormed = false := by decide
theorem smoke_accepts :
    (Instr.ibP0 2 0#1 0x1f#113).wellFormed = true ∧ (Instr.ibsP0 2 0#1 0#1 0xf#112).wellFormed = true ∧
    (Instr.corrP0 2 0#108).wellFormed = true ∧ (Instr.syncP1 1 0x3f#120).wellFormed = true := by decide

/-! ## Decoding: one word written out from the spec's encoding for every constructor -/

/-- R70: symbols `30 55 00 00`, the first word of program P1. -/
theorem decode_word : decode .undetermined 0#8 (.word 0x00005530#32) =
    .instr (.word 0x30#8 0x55#8 0x00#8 0x00#8) := by decide

/-- R132: payload 000100, control 00. -/
theorem decode_symData : decode .ignoring 0#8 (.symbol 0b00010000#8) = .instr (.symData 0b000100#6) := by decide

/-- R133: payload 010101, control 01. -/
theorem decode_symEop : decode .undetermined 0#8 (.symbol 0b01010101#8) = .instr (.symEop 0b010101#6) := by decide

/-- R134: payload 000100, control 10. -/
theorem decode_symEom : decode .undetermined 0#8 (.symbol 0b00010010#8) = .instr (.symEom 0b000100#6) := by decide

/-- R135: payload 000010, control 11. -/
theorem decode_symEopm : decode .sync 2#8 (.symbol 0b00001011#8) = .instr (.symEopm 0b000010#6) := by decide

/-- R170: `10 0d`; type 000100, branch code 1, count 00001. -/
theorem decode_ibP0 : decode .undetermined 0#8 (.packet [0b000100#6, 0b000011#6]) =
    .instr (.ibP0 2 1#1 1#113) := by decide

/-- R171: `f0 a9` is `P[12 bits](0xABC)`. -/
theorem decode_ibP1 : decode .indirectBranch 1#8 (.packet [0b111100#6, 0b101010#6]) =
    .instr (.ibP1 2 0xABC#120) := by decide

/-- R172: `17` is `P[6 bits](5)`. -/
theorem decode_ibP2 : decode .indirectBranch 2#8 (.packet [0b000101#6]) = .instr (.ibP2 1 5#120) := by decide

/-- R173: `30 55` is `P[12 bits](0x54C)`: type 12, direct_continue 1, branch code 0, count 0101. -/
theorem decode_ibsP0 : decode .undetermined 0#8 (.packet [0b001100#6, 0b010101#6]) =
    .instr (.ibsP0 2 1#1 0#1 5#112) := by decide

/-- R174: `00 00 04 00 00 05` is 0x40001000. -/
theorem decode_ibsP1 : decode .indirectBranchSync 1#8 (.packet [0#6, 0#6, 1#6, 0#6, 0#6, 1#6]) =
    .instr (.ibsP1 6 0x40001000#120) := by decide

/-- R175: `d0 20 07` is 0x1234. -/
theorem decode_ibsP2 : decode .indirectBranchSync 2#8 (.packet [0b110100#6, 0b001000#6, 0b000001#6]) =
    .instr (.ibsP2 3 0x1234#120) := by decide

/-- R176: `24 19` is `P[12 bits](0x189)`: type 9, direct_continue 0, count 00011. -/
theorem decode_syncP0 : decode .undetermined 0#8 (.packet [0b001001#6, 0b000110#6]) =
    .instr (.syncP0 2 0#1 3#113) := by decide

/-- R177: `00 00 08 00 00 05` is 0x40002000. -/
theorem decode_syncP1 : decode .sync 1#8 (.packet [0#6, 0#6, 2#6, 0#6, 0#6, 1#6]) =
    .instr (.syncP1 6 0x40002000#120) := by decide

/-- R178: `00 00 0b` is 0x2000. -/
theorem decode_syncP2 : decode .sync 2#8 (.packet [0#6, 0#6, 2#6]) = .instr (.syncP2 3 0x2000#120) := by decide

/-- R179: `84 28 1d` is `P[18 bits](0x072A1)`: type 33, event code 0xa, count 7. -/
theorem decode_corrP0 : decode .undetermined 0#8 (.packet [0b100001#6, 0b001010#6, 0b000111#6]) =
    .instr (.corrP0 3 7#108) := by decide

/-- R180: `64 0b` (P3) is 0x99. -/
theorem decode_corrP1 : decode .correction 1#8 (.packet [0b011001#6, 0b000010#6]) =
    .instr (.corrP1 2 0x99#120) := by decide

/-- The encoder writes the spec's symbols (P1 to P3). -/
theorem encode_packets :
    encode (.ibP0 2 1#1 1#113) = .packet [0b000100#6, 0b000011#6] ∧
    encode (.ibsP0 2 1#1 0#1 5#112) = .packet [0b001100#6, 0b010101#6] ∧
    encode (.syncP0 2 0#1 3#113) = .packet [0b001001#6, 0b000110#6] ∧
    encode (.corrP0 3 7#108) = .packet [0b100001#6, 0b001010#6, 0b000111#6] ∧
    encode (.word 0x30#8 0x55#8 0x00#8 0x00#8) = .word 0x00005530#32 := by decide

/-- X4: the other type codes, and the wrong event code, select no kind; so does a one-symbol packet (R186). -/
theorem reject_noKind :
    decode .undetermined 0#8 (.packet [5#6, 0#6]) = .reject .noKind ∧
    decode .undetermined 0#8 (.packet [33#6, 0xb#6]) = .reject .noKind ∧
    decode .undetermined 0#8 (.packet [4#6]) = .reject .noKind := by decide

/-- The other names of the decoder's rejections. -/
theorem reject_others :
    decode .ignoring 0#8 (.packet [4#6, 0#6]) = .reject .ignored ∧
    decode .undetermined 0#8 (.packet []) = .reject .empty ∧
    decode .undetermined 0#8 (.packet (List.replicate 21 4#6)) = .reject .overflow ∧
    decode .sync 3#8 (.packet [1#6]) = .reject .excessPacket ∧
    decode .correction 2#8 (.packet [1#6]) = .reject .excessPacket ∧
    decode .sync 0#8 (.packet [4#6, 0#6]) = .reject .packetMismatch := by decide

/-- The table's words: its match value for each row that has one. -/
theorem table_words :
    decodeTableWord 32 0x00005530 = some (.word 0x30#8 0x55#8 0x00#8 0x00#8) ∧
    decodeTableWord 8 0x00 = some (.symData 0#6) ∧ decodeTableWord 8 0x01 = some (.symEop 0#6) ∧
    decodeTableWord 8 0x02 = some (.symEom 0#6) ∧ decodeTableWord 8 0x03 = some (.symEopm 0#6) ∧
    decodeTableWord 8 0x44 = some (.ibP0 2 1#1 0#113) ∧
    decodeTableWord 8 0x4C = some (.ibsP0 2 1#1 0#1 0#112) ∧
    decodeTableWord 8 0x09 = some (.syncP0 2 0#1 0#113) ∧
    decodeTableWord 16 0x2A1 = some (.corrP0 2 0#108) := by decide

/-- `withFetchWord` makes the next step run the row: `IB.P0` and `CORR.P0` after reset. -/
theorem fetch_words :
    place (stateOf (step (State.reset.withFetchWord 8 0x44))) = (.indirectBranch, 1, 0) ∧
    place (stateOf (step (State.reset.withFetchWord 16 0x2A1))) = (.correction, 1, 0) ∧
    (stateOf (step (State.reset.withFetchWord 32 0x03240324))).eventOut.length = 2 := by decide

/-! ## One step of each instruction -/

/-- W1: symbols `30 55 00 00` in that order. -/
theorem test_word_order : place (stateOf (step (offered (.word 0x00005530#32)))) = (.indirectBranchSync, 1, 12) ∧
    (stateOf (step (offered (.word 0x00005530#32)))).wordStatus = .accepted := by decide

/-- W2: two events in one word, the most there can be (R61). -/
theorem test_word_two_events : (stateOf (step (offered (.word 0x03240324#32)))).eventOut =
    [.sync 0x0#32 0x0#64, .sync 0x0#32 0x0#64] := by decide

/-- W5: a word after an abort is refused without a state change. -/
theorem test_word_refused : stateOf (exec (.word 0x24#8 0x03#8 0x24#8 0x03#8) abortedState) =
    { abortedState with wordStatus := .refused } := by decide

/-- A1: `10`. -/
theorem test_symData_append : (stateOf (exec (.symData 4#6) State.reset)).st = packet 0x04#120 6#8 := by decide

/-- A5's last step, with a DATA symbol: the 21st append overflows. -/
theorem test_symData_overflow : place (stateOf (exec (.symData 0#6) (held 0#120 120#8))) = (.ignoring, 0, 0) ∧
    (stateOf (exec (.symData 0#6) (held 0#120 120#8))).diag = [.overflow] := by decide

/-- A2's second symbol: `55` ends `P[12 bits](0x54C)`. -/
theorem test_symEop_dispatch : (stateOf (exec (.symEop 21#6) (held 0x0C#120 6#8))).st =
    ⟨0#120, 0#8, ⟨.indirectBranchSync, .normal, 5#16, 1#8, 0#32, 0#64⟩, 1#8⟩ := by decide

/-- A6's last step: exactly 120 bits fit, and the type-0 packet fails. -/
theorem test_symEop_noKind : place (stateOf (exec (.symEop 0#6) (held 0#120 114#8))) = (.ignoring, 0, 0) ∧
    (stateOf (exec (.symEop 0#6) (held 0#120 114#8))).diag = [.noKind] := by decide

/-- A12: `12` in IndirectBranch at index 1: EOM alone ends nothing. -/
theorem test_symEom_appends : place (stateOf (exec (.symEom 4#6) (waiting .indirectBranch 1#8))) =
    (.indirectBranch, 1, 6) ∧
    (stateOf (exec (.symEom 4#6) (waiting .indirectBranch 1#8))).st.packetBits = 0x04#120 := by decide

/-- A7's `02`: no resync without EOP. -/
theorem test_symEom_ignored : stateOf (exec (.symEom 0#6) (waiting .ignoring 0#8)) = waiting .ignoring 0#8 := by decide

/-- A4: `0b` completes a Sync message. -/
theorem test_symEopm_sync :
    let s := { held 0#120 12#8 with st :=
      ⟨0#120, 12#8, message .sync .undefined 0#16 0x40002000#32 0#64, 2#8⟩ }
    place (stateOf (exec (.symEopm 2#6) s)) = (.undetermined, 0, 0) ∧
    (stateOf (exec (.symEopm 2#6) s)).ctx = ⟨0x40002000#32, true⟩ ∧
    (stateOf (exec (.symEopm 2#6) s)).eventOut = [.sync 0x40002000#32 0x2000#64] := by decide

/-- A8 and A9: a resync from `Ignoring`; the null packet fails with EOM and leaves `Undetermined`. -/
theorem test_symEopm_recovery :
    stateOf (exec (.symEopm 0#6) (waiting .ignoring 0#8)) = State.reset ∧
    place (stateOf (exec (.symEopm 0#6) State.reset)) = (.undetermined, 0, 0) ∧
    (stateOf (exec (.symEopm 0#6) State.reset)).diag = [.noKind] := by decide

/-- D1. -/
theorem test_ibP0 : (stateOf (exec (.ibP0 2 1#1 1#113) State.reset)).st =
    ⟨0#120, 0#8, message .indirectBranch .nonOcdException 1#16 0#32 0#64, 1#8⟩ := by decide

/-- D14's packet 0: 24 bits with bit 23 set, which the 16-bit count drops. -/
theorem test_ibP0_drops_bit_23 : (stateOf (exec (.ibP0 4 0#1 0x10000#113) State.reset)).st.message.instructionCount =
    0#16 := by decide

/-- D2. -/
theorem test_ibP1 : (stateOf (exec (.ibP1 2 0xABC#120) (waiting .indirectBranch 1#8))).st.message.address =
    0xABC#32 ∧
    place (stateOf (exec (.ibP1 2 0xABC#120) (waiting .indirectBranch 1#8))) = (.indirectBranch, 2, 0) := by decide

/-- D3's packet, ended with EOP alone (R172). -/
theorem test_ibP2 : (stateOf (exec (.ibP2 1 5#120) (waiting .indirectBranch 2#8))).st.message.timestamp = 5#64 ∧
    place (stateOf (exec (.ibP2 1 5#120) (waiting .indirectBranch 2#8))) = (.indirectBranch, 3, 0) := by decide

/-- A2. -/
theorem test_ibsP0 : (stateOf (exec (.ibsP0 2 1#1 0#1 5#112) State.reset)).st =
    ⟨0#120, 0#8, ⟨.indirectBranchSync, .normal, 5#16, 1#8, 0#32, 0#64⟩, 1#8⟩ := by decide

/-- D6's packet 1 and E4: bits 32 to 35 are dropped. -/
theorem test_ibsP1_drops :
    (stateOf (exec (.ibsP1 6 0xF12345678#120) (waiting .indirectBranchSync 1#8))).st.message.address =
    0x12345678#32 := by decide

/-- R175's example. -/
theorem test_ibsP2 : (stateOf (exec (.ibsP2 3 0x1234#120) (waiting .indirectBranchSync 2#8))).st.message.timestamp =
    0x1234#64 := by decide

/-- D4. -/
theorem test_syncP0 : (stateOf (exec (.syncP0 2 0#1 3#113) State.reset)).st =
    ⟨0#120, 0#8, message .sync .undefined 3#16 0#32 0#64, 1#8⟩ := by decide

/-- R177's example. -/
theorem test_syncP1 : (stateOf (exec (.syncP1 6 0x40002000#120) (waiting .sync 1#8))).st.message.address =
    0x40002000#32 := by decide

/-- D7's packet 2: 66 bits, all ones; bits 64 and 65 are dropped. -/
theorem test_syncP2_drops :
    (stateOf (exec (.syncP2 11 0x3FFFFFFFFFFFFFFFF#120) (waiting .sync 2#8))).st.message.timestamp =
    0xFFFFFFFFFFFFFFFF#64 := by decide

/-- D5. -/
theorem test_corrP0 : (stateOf (exec (.corrP0 3 7#108) State.reset)).st =
    ⟨0#120, 0#8, message .correction .undefined 7#16 0#32 0#64, 1#8⟩ := by decide

/-- E6: the 12-bit packet 0 has a count of no bits, and validates. -/
theorem test_corrP0_empty_count :
    place (stateOf (exec (.corrP0 2 0#108) State.reset)) = (.correction, 1, 0) := by decide

/-- D12b's timestamp, ended with EOP alone (R180). -/
theorem test_corrP1 : (stateOf (exec (.corrP1 1 5#120) (waiting .correction 1#8))).st.message.timestamp = 5#64 ∧
    place (stateOf (exec (.corrP1 1 5#120) (waiting .correction 1#8))) = (.correction, 2, 0) := by decide

/-- D10 and D12c: a packet past the last one, without EOM. -/
theorem test_excess : place (stateOf (exec (.ibP2 1 0#120) (waiting .indirectBranch 3#8))) = (.ignoring, 0, 0) ∧
    (stateOf (exec (.corrP1 1 0#120) (waiting .correction 2#8))).diag = [.excessPacket] := by decide

/-! ## The parts below the instructions -/

/-- X1 and E1 to E3. -/
theorem test_extract :
    extract (packet 0x3FC#120 12#8) 2 6 = some 0x3F#64 ∧ extract (packet 0x3FC#120 12#8) 2 7 = some 0x7F#64 ∧
    extract (packet 0x3FC#120 12#8) 2 10 = some 0xFF#64 ∧ extract (packet 0x3FC#120 12#8) 2 11 = none ∧
    extract (packet 0x3FC#120 12#8) 12 0 = some 0#64 ∧ extract (packet 0x54C#120 12#8) 8 4 = some 5#64 ∧
    extract (packet 0x54C#120 12#8) 8 5 = none := by decide

/-- E7 to E9. E8 gives the candidate of a failed decode as none, where R104 keeps the kind the type field named; the
dispatcher never reads it (log 29). -/
theorem test_decodeTable :
    decodeTable defaultConfig (packet 0x0C4#120 12#8) (table .indirectBranch 0) = ⟨true, some .indirectBranch,
      ⟨4#8, 1#8, 0#8⟩, message .undetermined .nonOcdException 1#16 0#32 0#64⟩ ∧
    decodeTable defaultConfig (packet 0x04#120 6#8) (table .indirectBranch 0) =
      ⟨false, some .indirectBranch, ⟨4#8, 0#8, 0#8⟩, Message.zeroed .undetermined⟩ ∧
    decodeTable defaultConfig (packet 0x0C4#120 12#8) (table .sync 0) =
      ⟨false, none, ⟨4#8, 0#8, 0#8⟩, Message.zeroed .undetermined⟩ := by decide

/-- T1, T2 and T7: IndirectBranch. -/
theorem test_interp_ib :
    interpMessage (message .indirectBranch .nonOcdException 3#16 0x0ff0#32 0x30#64) ⟨0x1000#32, true⟩ =
      ⟨⟨0x1ff0#32, true⟩, [.branch 0x1003#32 0x1ff0#32 .nonOcdException 0x30#64]⟩ ∧
    interpMessage (message .indirectBranch .normal 1#16 0xABC#32 0#64) ⟨0#32, false⟩ = ⟨⟨0xABC#32, false⟩, []⟩ ∧
    interpMessage (message .indirectBranch .nonOcdException 0x20#16 0xF#32 0#64) ⟨0xFFFFFFF0#32, true⟩ =
      ⟨⟨0xFFFFFFFF#32, true⟩, [.branch 0x10#32 0xFFFFFFFF#32 .nonOcdException 0#64]⟩ := by decide

/-- T3, T5 and T6: the other kinds. -/
theorem test_interp_others :
    interpMessage (message .indirectBranchSync .normal 5#16 0x40001000#32 0x1234#64) ⟨0#32, false⟩ =
      ⟨⟨0x40001000#32, true⟩, [.branch 0x5#32 0x40001000#32 .normal 0x1234#64]⟩ ∧
    interpMessage (message .sync .undefined 0x1F#16 0#32 0#64) ⟨0x10#32, true⟩ = ⟨⟨0#32, true⟩, [.sync 0#32 0#64]⟩ ∧
    interpMessage (message .correction .undefined 7#16 0#32 0x99#64) ⟨0xABC#32, false⟩ = ⟨⟨0xABC#32, false⟩, []⟩ := by
  decide

/-- R: the event records. -/
theorem test_records :
    (Event.branch 0x5#32 0x40001000#32 .normal 0x1234#64).record = ⟨0#1, 0x5#32, 0x40001000#32, 1#3, 0x1234#64⟩ ∧
    (Event.branch 0x1003#32 0x1ff0#32 .nonOcdException 0x30#64).record =
      ⟨0#1, 0x1003#32, 0x1ff0#32, 2#3, 0x30#64⟩ ∧
    (Event.sync 0x40002000#32 0x2000#64).record = ⟨1#1, 0#32, 0x40002000#32, 0#3, 0x2000#64⟩ := by decide

/-- T4, T5, D12, D15 and T2: messages that end after packet 0 or packet 1. -/
theorem test_short_messages :
    ((runSymbols [0x30#8, 0x01#8, 0x03#8] State.reset).ctx = ⟨0#32, true⟩ ∧
      (runSymbols [0x30#8, 0x01#8, 0x03#8] State.reset).eventOut = [.branch 0#32 0#32 .normal 0#64]) ∧
    ((runSymbols [0x24#8, 0xfd#8, 0x03#8] (tracking 0x10#32 true)).ctx = ⟨0#32, true⟩ ∧
      (runSymbols [0x24#8, 0xfd#8, 0x03#8] (tracking 0x10#32 true)).eventOut = [.sync 0#32 0#64]) ∧
    runSymbols [0x84#8, 0x2b#8] State.reset = State.reset ∧
    ((tracking 0x100#32 true).afterMessage [.ibP0 2 0#1 1#113]).eventOut =
      [.branch 0x101#32 0x100#32 .normal 0#64] ∧
    (State.reset.afterMessage [.ibP0 2 0#1 1#113, .ibP1 2 0xABC#120]).ctx = ⟨0xABC#32, false⟩ ∧
    (State.reset.afterMessage [.ibP0 2 0#1 1#113, .ibP1 2 0xABC#120]).eventOut = [] := by decide

/-- A10 and A11, one word each: with `RESET_KIND = Ignoring` the first message is lost unless a resync symbol leads. -/
theorem test_reset_ignoring :
    let s := State.resetWith { defaultConfig with resetKind := .ignoring }
    place (runSymbols [0x24#8, 0x03#8] s) = (.undetermined, 0, 0) ∧ (runSymbols [0x24#8, 0x03#8] s).eventOut = [] ∧
    (runSymbols [0x03#8, 0x24#8, 0x03#8] s).eventOut = [.sync 0#32 0#64] := by decide

/-- R260, D21: a new session keeps only what is still to come, and the parameters (R7): here a `RESET_KIND` that is
not the default. -/
theorem test_newSession : (tracking 5#32 true).newSession = State.reset ∧
    (let cfg : Config := { defaultConfig with resetKind := .ignoring }
     { State.resetWith cfg with aborted := true, wordIn := [.word 7#32] }.newSession =
      { State.resetWith cfg with wordIn := [.word 7#32] }) := by decide

/-- R6: the table of parameters, line by line. -/
theorem test_parameters :
    wordBits = 32 ∧ symbolsPerWord = 4 ∧ symbolBits = 8 ∧ payloadBits = 6 ∧ ctrlBits = 2 ∧ eopBit = 0 ∧ eomBit = 1 ∧
    packetCapacity = 120 ∧ maxAppends = 20 ∧ addrBits = 32 ∧ icountBits = 16 ∧ tsBits = 64 ∧ typeBits = 6 ∧
    [typeIB, typeIBS, typeSYNC, typeCORR] = [4, 12, 9, 33] ∧ eventCodeCORR = 0xa ∧
    [Kind.indirectBranch, .indirectBranchSync, .sync, .correction].map maxPackets = [3, 3, 3, 2] ∧
    priority = [.indirectBranch, .indirectBranchSync, .sync, .correction] ∧
    defaultConfig = ⟨.undetermined, .normal, .nonOcdException⟩ := by decide

/-- R6: the derived entries follow from the others: 120 / 6 appends, four symbols of 6 and 2 bits to a word. -/
theorem test_parameters_agree : maxAppends = packetCapacity / payloadBits ∧ symbolBits = payloadBits + ctrlBits ∧
    wordBits = symbolsPerWord * symbolBits := by decide

/-- W3: nothing offered, nothing happens. -/
theorem test_idle : stateOf (step State.reset) = State.reset ∧ State.reset.output = [] := by decide

/-! ## Witnesses: for each obligation with hypotheses, values that meet them all, each clause at a boundary -/

/-- The reset state meets the hypothesis of the packet rows. -/
theorem reset_packetStart : State.reset.PacketStart := ⟨rfl, by decide, rfl, rfl⟩

/-- So does a block that waits for a later packet. -/
theorem waiting_packetStart :
    (waiting .indirectBranch 1#8).PacketStart ∧ (waiting .indirectBranchSync 2#8).PacketStart ∧
    (waiting .sync 2#8).PacketStart ∧ (waiting .correction 1#8).PacketStart :=
  ⟨⟨rfl, by decide, rfl, rfl⟩, ⟨rfl, by decide, rfl, rfl⟩, ⟨rfl, by decide, rfl, rfl⟩, ⟨rfl, by decide, rfl, rfl⟩⟩

/-- The reset state meets the invariant, and the equivalence of R210. -/
theorem reset_inv : State.reset.Inv ∧ State.reset.ValidIffEvents :=
  ⟨⟨⟨by decide, by decide, by decide, by decide, trivial, by decide⟩, rfl⟩,
    ⟨fun h => absurd h (by decide), fun h => absurd rfl h⟩⟩

/-- A state in mid-message, mid-packet, meets the invariant: W1's end state. -/
theorem midway_inv : (stateOf (step (offered (.word 0x00005530#32)))).Inv := by
  have h : stateOf (step (offered (.word 0x00005530#32))) = { State.reset with
      st := ⟨0#120, 12#8, ⟨.indirectBranchSync, .normal, 5#16, 1#8, 0#32, 0#64⟩, 1#8⟩
      wordStatus := .accepted } := by decide
  rw [h]
  exact ⟨⟨by decide, by decide, by decide, by decide, ⟨by decide, by decide, by decide⟩, by decide⟩, rfl⟩

/-- `StepKeepsTheInvariant`, `StepKeepsValidIffEvents`, `StepTakesOneUnitAndKeepsTheParameters`: a step that does
something. -/
theorem witness_step : (offered (.word 0x03240324#32)).wordIn.length = 1 ∧
    (∃ t, step (offered (.word 0x03240324#32)) = .next t ∧ t.ctx = ⟨0#32, true⟩ ∧ t.eventOut.length = 2 ∧
      t.wordIn = []) :=
  ⟨by decide, stateOf (step (offered (.word 0x03240324#32))), rfl, by decide, by decide, by decide⟩

/-- `ValidStaysTrue`: a valid context before a step. -/
theorem witness_ValidStaysTrue :
    let s := { tracking 0x1000#32 true with wordIn := [.word 0x03030b10#32] }
    s.ctx.valid = true ∧ ∃ t, step s = .next t ∧ t.ctx.valid = true := ⟨rfl, _, rfl, by decide⟩

/-- `DecodeOfEncodeIsTheInstruction`: each family, at the shortest and the longest packet. -/
theorem witness_DecodeOfEncode :
    ((Instr.ibP0 2 1#1 0x1f#113).WellFormed ∧ (Instr.ibP0 2 1#1 0x1f#113).selectedIn .undetermined 0#8 = true) ∧
    ((Instr.ibsP0 20 1#1 1#1 (BitVec.allOnes 112)).WellFormed ∧
      (Instr.ibsP0 20 1#1 1#1 (BitVec.allOnes 112)).selectedIn .undetermined 0#8 = true) ∧
    ((Instr.syncP1 1 0x3f#120).WellFormed ∧ (Instr.syncP1 1 0x3f#120).selectedIn .sync 1#8 = true) ∧
    ((Instr.corrP1 20 (BitVec.allOnes 120)).WellFormed ∧
      (Instr.corrP1 20 (BitVec.allOnes 120)).selectedIn .correction 1#8 = true) ∧
    ((Instr.ibP2 11 0x3ffffffffffffffff#120).WellFormed ∧
      (Instr.ibP2 11 0x3ffffffffffffffff#120).selectedIn .indirectBranch 2#8 = true) ∧
    ((Instr.symEopm 63#6).WellFormed ∧ (Instr.symEopm 63#6).selectedIn .ignoring 0#8 = true) := by decide

/-- `EncodeOfDecodeIsTheCode`: a packet of 20 symbols that decodes. -/
theorem witness_EncodeOfDecode : ∃ i, decode .sync 1#8 (.packet (List.replicate 20 63#6)) = .instr i :=
  ⟨.syncP1 20 (BitVec.allOnes 120), by decide⟩

/-- `ControlBitsGiveTheClass`: each class at payload 63. -/
theorem witness_ControlBits : 0xfc#8 &&& 0x03#8 = 0x00#8 ∧ 0xfd#8 &&& 0x03#8 = 0x01#8 ∧
    0xfe#8 &&& 0x03#8 = 0x02#8 ∧ 0xff#8 &&& 0x03#8 = 0x03#8 := by decide

/-- `RecognizedPacketZeros`: 20 symbols, recognized and not. -/
theorem witness_RecognizedPacketZeros : (List.replicate 18 0#6).length ≤ 18 ∧
    decode .undetermined 0#8 (.packet (12#6 :: 0#6 :: List.replicate 18 0#6)) ≠ .reject .noKind ∧
    decode .undetermined 0#8 (.packet (33#6 :: 0xb#6 :: List.replicate 18 0#6)) = .reject .noKind := by decide

/-- `StepRunsTheDecodedInstruction`: a unit offered that decodes. -/
theorem witness_StepRuns : ∃ i, (offered (.packet [9#6, 6#6])).wordIn = .packet [9#6, 6#6] :: [] ∧
    decode (offered (.packet [9#6, 6#6])).st.message.kind (offered (.packet [9#6, 6#6])).st.messagePacketIndex
      (.packet [9#6, 6#6]) = .instr i := ⟨.syncP0 2 0#1 3#113, rfl, by decide⟩

/-- `StepWithoutAnInstruction`: nothing offered; a packet that no format takes. -/
theorem witness_StepWithout : State.reset.wordIn = [] ∧
    (offered (.packet [5#6, 0#6])).wordIn = .packet [5#6, 0#6] :: [] ∧
    decode (offered (.packet [5#6, 0#6])).st.message.kind (offered (.packet [5#6, 0#6])).st.messagePacketIndex
      (.packet [5#6, 0#6]) = .reject .noKind := by decide

/-- `WordRunsItsFourSymbols`, `WordSymbolsLowestByteFirst`, `AbortedSessionTakesNothing`: both values of the abort
bit. -/
theorem witness_words : State.reset.aborted = false ∧ abortedState.aborted = true ∧
    (offered (.word 0x00005530#32)).wordIn = .word 0x00005530#32 :: [] ∧
    (offered (.word 0x00005530#32)).aborted = false := by decide

/-- `AppendPlacesThePayload`, `BufferEmptyAfterEveryPacket`, `MessageEndStartsOver`: the last count with room. -/
theorem witness_room : (packet 0#120 114#8).packetBitCount.toNat + 6 ≤ 120 ∧ (held 0#120 114#8).aborted = false ∧
    (held 0#120 114#8).st.message.kind ≠ .ignoring ∧ (0x01#8).getLsbD 0 = true ∧ 0x03#8 &&& 0x03#8 = 0x03#8 ∧
    (113 < 114 ∨ 114 + 6 ≤ 113) ∧ (120 < 114 ∨ 114 + 6 ≤ 120) ∧
    (packet 0#120 114#8).packetBitCount.toNat = 6 * 19 := by decide

/-- `MessageEndStartsOver` and `ResyncSkipsToTheFirstMarker` in `Ignoring`; the dropped symbols are those of A7. -/
theorem witness_ignoring :
    (waiting .ignoring 0#8).aborted = false ∧ (waiting .ignoring 0#8).st.message.kind = .ignoring ∧
    (∀ b ∈ [0x10#8, 0x01#8, 0x02#8, 0x00#8, 0x11#8, 0x52#8], b &&& 0x03#8 ≠ 0x03#8) ∧
    0x03#8 &&& 0x03#8 = 0x03#8 := by decide

/-- `OverflowAbandonsThePacket`: a full buffer. -/
theorem witness_Overflow : (held 0#120 120#8).aborted = false ∧ (held 0#120 120#8).st.message.kind ≠ .ignoring ∧
    (held 0#120 120#8).st.packetBitCount = 120#8 := by decide

/-- `OnlyMessageEndsEmit`: a symbol that emits (A3's last). -/
theorem witness_OnlyMessageEndsEmit : (runSymbol 0x03#8 (held 0x9#120 12#8)).eventOut = [.sync 0#32 0#64] ∧
    State.reset.eventOut = [] := by decide

/-- `RecoverableErrorFrame`: overflow, a failure without EOM and a failure with it each report; the first and the last
leave a data field as it was, and a failed type determination the zero its dispatch wrote (R161). A mismatch, which no
run reaches (R163), meets the hypothesis at index 0. -/
theorem witness_RecoverableErrorFrame :
    let full : State := { State.reset with
      st := ⟨0#120, 120#8, message .sync .undefined 7#16 0#32 0#64, 1#8⟩ }
    let past : State := { State.reset with st := ⟨0#120, 0#8, message .correction .undefined 7#16 0#32 0#64, 2#8⟩ }
    let fresh : State := { State.reset with
      st := ⟨0#120, 0#8, message .undetermined .undefined 7#16 0#32 0#64, 0#8⟩ }
    State.reset.diag = [] ∧
    ((runSymbol 0x03#8 full).diag = [.overflow] ∧ (runSymbol 0x03#8 full).st.message.instructionCount = 7#16) ∧
    ((runSymbol 0x03#8 past).diag = [.excessPacket] ∧ (runSymbol 0x03#8 past).st.message.instructionCount = 7#16) ∧
    ((runSymbol 0x01#8 fresh).diag = [.noKind] ∧ (runSymbol 0x01#8 fresh).st.message.instructionCount = 0#16) ∧
    (runSymbol 0x01#8 (waiting .sync 0#8)).diag = [.packetMismatch] := by decide

/-- `ExtractReadsThePacketBits`: the widest read that fits, at both ends, and the first that does not. -/
theorem witness_Extract : (packet 0#120 120#8).packetBitCount.toNat = 120 ∧ 56 + 64 ≤ 120 ∧ 120 + 0 ≤ 120 ∧
    120 < 57 + 64 := by decide

/-- `ExtractBoundaryExample`: X1's buffer. -/
theorem witness_ExtractBoundary : packet 0x3FC#120 12#8 = ⟨0x3FC#120, 12#8, Message.zeroed .undetermined, 0#8⟩ := by
  decide

/-- `TerminalFieldTakesTheRest`: E6's field of no bits, and E4's. -/
theorem witness_Terminal : 12 ≤ (packet 0x2A1#120 12#8).packetBitCount.toNat ∧
    0 ≤ (packet 0xF12345678#120 36#8).packetBitCount.toNat := by decide

/-- `BufferByteView`: the first and the last packet bit; the last bit of a widest field at the end of the buffer. -/
theorem witness_BufferByteView : 0 < 120 ∧ 119 < 120 ∧
    56 + 64 ≤ (packet 0#120 120#8).packetBitCount.toNat ∧ 63 < 64 := by decide

/-- `TablesEndInTheirTerminalField`: the last table of each kind. -/
theorem witness_Tables : 2 < maxPackets .indirectBranch ∧ 2 < maxPackets .indirectBranchSync ∧ 2 < maxPackets .sync ∧
    1 < maxPackets .correction := by decide

/-- `IbP0TableDecodes` to `CorrP0TableDecodes`: packets of the shortest lengths that pass, and one bit less; the clauses
of failure and of success exclude one another. -/
theorem witness_packetZeroTables :
    ((packet 0x04#120 7#8).packetBits.extractLsb' 0 6 = 4#6 ∧ 7 ≤ (packet 0x04#120 7#8).packetBitCount.toNat) ∧
    ((packet 0x4C#120 7#8).packetBits.extractLsb' 0 6 = 12#6 ∧ 7 ≤ (packet 0x4C#120 7#8).packetBitCount.toNat) ∧
    ((packet 0x0C#120 8#8).packetBits.extractLsb' 0 6 = 12#6 ∧ 8 ≤ (packet 0x0C#120 8#8).packetBitCount.toNat) ∧
    ((packet 0x09#120 7#8).packetBits.extractLsb' 0 6 = 9#6 ∧ 7 ≤ (packet 0x09#120 7#8).packetBitCount.toNat) ∧
    ((packet 0x2A1#120 12#8).packetBits.extractLsb' 0 6 = 33#6 ∧
      (packet 0x2A1#120 12#8).packetBits.extractLsb' 6 6 = 0xa#6 ∧
      12 ≤ (packet 0x2A1#120 12#8).packetBitCount.toNat) ∧
    6 ≤ (packet 0x04#120 6#8).packetBitCount.toNat ∧ (packet 0x05#120 12#8).packetBits.extractLsb' 0 6 ≠ 4#6 ∧
    (packet 0x04#120 6#8).packetBitCount.toNat < 7 ∧
    (packet 0x2E1#120 12#8).packetBits.extractLsb' 6 6 ≠ 0xa#6 := by decide

/-- `AtMostOneCandidateValidates` and `TypeDeterminationStartsAFreshMessage`: E7's packet. -/
theorem witness_TypeDetermination : (packet 0x0C4#120 12#8).message.kind = .undetermined ∧
    .indirectBranch ∈ priority ∧
    (decodeTable defaultConfig (packet 0x0C4#120 12#8).zeroMessage (table .indirectBranch 0)).ok = true ∧
    (decodeTable defaultConfig (packet 0x0C4#120 12#8) (table .indirectBranch 0)).ok = true := by decide

/-- `NoCandidateLeavesTheKind`: type 5 (X4). -/
theorem witness_NoCandidate : (packet 0x05#120 12#8).message.kind = .undetermined ∧
    ∀ k ∈ priority, (decodeTable defaultConfig (packet 0x05#120 12#8) (table k 0)).ok = false := by decide

/-- `LaterPacketsNeverFail` and `ExcessPacketDropsTheMessage`: the indices where they meet. -/
theorem witness_later :
    (1 ≤ (waiting .sync 2#8).st.messagePacketIndex.toNat ∧
      (waiting .sync 2#8).st.messagePacketIndex.toNat < maxPackets (waiting .sync 2#8).st.message.kind) ∧
    ((waiting .sync 3#8).st.message.kind ≠ .undetermined ∧
      maxPackets (waiting .sync 3#8).st.message.kind ≤ (waiting .sync 3#8).st.messagePacketIndex.toNat) ∧
    (1 ≤ (waiting .correction 1#8).st.messagePacketIndex.toNat ∧
      (waiting .correction 1#8).st.messagePacketIndex.toNat < maxPackets .correction) ∧
    maxPackets .correction ≤ (waiting .correction 2#8).st.messagePacketIndex.toNat := by decide

/-- `DispatchReadsOnlyBelowTheCount`: two buffers that differ above the count alone. -/
theorem witness_stale : (∀ i : Nat, i < (packet 0x0C4#120 12#8).packetBitCount.toNat →
    (0xF0C4#120).getLsbD i = (packet 0x0C4#120 12#8).packetBits.getLsbD i) ∧
    0xF0C4#120 ≠ (packet 0x0C4#120 12#8).packetBits := by
  constructor
  · show ∀ i : Nat, i < 12 → _
    decide
  · decide

/-- The packet rows' operands at the shortest and the longest packet, with their states (`reset_packetStart`,
`waiting_packetStart`). -/
theorem witness_packetRows :
    State.reset.st.message.kind = .undetermined ∧ (Instr.ibP0 2 0#1 0x1f#113).WellFormed ∧
    (Instr.ibP0 20 1#1 (BitVec.allOnes 113)).WellFormed ∧ (Instr.ibsP0 2 0#1 1#1 0xf#112).WellFormed ∧
    (Instr.ibsP0 20 1#1 0#1 (BitVec.allOnes 112)).WellFormed ∧ (Instr.syncP0 2 1#1 0x1f#113).WellFormed ∧
    (Instr.syncP0 20 1#1 (BitVec.allOnes 113)).WellFormed ∧ (Instr.corrP0 2 0#108).WellFormed ∧
    (Instr.corrP0 20 (BitVec.allOnes 108)).WellFormed ∧ (Instr.ibP1 1 0x3f#120).WellFormed ∧
    (Instr.ibP1 20 (BitVec.allOnes 120)).WellFormed ∧ (Instr.ibP2 1 0#120).WellFormed ∧
    (Instr.ibP2 20 (BitVec.allOnes 120)).WellFormed := by decide

/-- The contexts of the later packet rows. -/
theorem witness_packetContexts :
    ((waiting .indirectBranch 1#8).st.messagePacketIndex = 1#8 ∧
      (waiting .indirectBranch 1#8).st.message.kind = .indirectBranch) ∧
    ((waiting .indirectBranchSync 2#8).st.messagePacketIndex = 2#8 ∧
      (waiting .indirectBranchSync 2#8).st.message.kind = .indirectBranchSync) ∧
    ((waiting .sync 2#8).st.messagePacketIndex = 2#8 ∧ (waiting .sync 2#8).st.message.kind = .sync) ∧
    ((waiting .correction 1#8).st.messagePacketIndex = 1#8 ∧
      (waiting .correction 1#8).st.message.kind = .correction) := by decide

/-- `PacketRowsDroppedWhileIgnoring`. -/
theorem witness_dropped : encode (.ibP0 2 0#1 0#113) = .packet [4#6, 0#6] ∧
    (waiting .ignoring 0#8).st.message.kind = .ignoring := by decide

/-- `IndirectBranchInterpretation`, `AbsoluteAndCorrectionInterpretations`: a state of each message kind, with
`valid` either way. -/
theorem witness_Interpretations : (waiting .indirectBranch 3#8).st.message.kind = .indirectBranch ∧
    (waiting .indirectBranchSync 1#8).st.message.kind = .indirectBranchSync ∧
    (waiting .sync 1#8).st.message.kind = .sync ∧ (waiting .correction 2#8).st.message.kind = .correction ∧
    (waiting .indirectBranch 3#8).ctx.valid = false ∧ (tracking 0#32 true).ctx.valid = true := by decide

/-- `RoundTripFraming` on P1's packets, and `MessagesOfEveryLengthAreInterpreted`: their operands. -/
theorem witness_messages : (Instr.ibsP0 2 1#1 0#1 5#112).WellFormed ∧ (Instr.ibsP1 6 0x40001000#120).WellFormed ∧
    (Instr.ibsP2 3 0x1234#120).WellFormed ∧ (Instr.syncP0 2 0#1 3#113).WellFormed ∧
    (Instr.syncP1 6 0x40002000#120).WellFormed ∧ (Instr.syncP2 3 0x2000#120).WellFormed ∧
    (Instr.ibP0 2 0#1 1#113).WellFormed ∧ (Instr.ibP1 1 0#120).WellFormed ∧ (Instr.ibP2 20 0x1234#120).WellFormed ∧
    (Instr.corrP0 2 0#108).WellFormed := by decide

/-- `MessagesOfEveryLengthAreInterpreted`: D15's start state, where `valid` holds, and T2's, where it does not. -/
theorem witness_messageStarts :
    (tracking 0x100#32 true).PacketStart ∧ (tracking 0x100#32 true).st.message.kind = .undetermined ∧
    (tracking 0x100#32 true).ctx.valid = true ∧ State.reset.PacketStart ∧
    State.reset.st.message.kind = .undetermined ∧ State.reset.ctx.valid = false :=
  ⟨⟨rfl, by decide, rfl, rfl⟩, rfl, rfl, reset_packetStart, rfl, rfl⟩

end Sys2Proof.Tests
end

section
/-! SUPPORT and PROOF. What no symbol and no code touches: the open parameters and the input port. Then the frame of a
step, from the two ways a step can go. -/

namespace Sys2Proof.Machine

/-- A symbol leaves the parameters (R7, R35) and the input port alone, in every branch of R131. -/
theorem runSymbol_cfg_wordIn (b : U8) (s : State) :
    (runSymbol b s).cfg = s.cfg ∧ (runSymbol b s).wordIn = s.wordIn := by
  rcases runSymbol_cases b s with e | ⟨_, _, _, _, e⟩ | ⟨_, _, _, e⟩ | ⟨running, active, room⟩
  · rw [e]; exact ⟨rfl, rfl⟩
  · rw [e]; exact ⟨resync_cfg s, resync_wordIn s⟩
  · rw [e]; exact ⟨recover_cfg s _ _, recover_wordIn s _ _⟩
  · rcases runSymbol_active_cases b s running active room with
      ⟨_, e⟩ | ⟨_, _, _, _, e⟩ | ⟨_, _, _, _, e⟩ | ⟨_, _, _, _, e⟩ <;> rw [e] <;> exact ⟨rfl, rfl⟩

/-- A word, a symbol or a packet, once taken off the port, leaves the parameters and the rest of the port alone: the
answer to a word is in a field of its own (log 8). -/
theorem runCode_cfg_wordIn (c : Code) (s : State) :
    (runCode c s).cfg = s.cfg ∧ (runCode c s).wordIn = s.wordIn :=
  runCode_preserves (fun t => t.cfg = s.cfg ∧ t.wordIn = s.wordIn)
    (fun b t ⟨hcfg, hin⟩ =>
      have ⟨keptCfg, keptIn⟩ := runSymbol_cfg_wordIn b t
      ⟨keptCfg.trans hcfg, keptIn.trans hin⟩)
    (fun _ _ kept => kept) c s ⟨rfl, rfl⟩

/-- A step is idle on an empty port, or takes the first unit and runs some code on the state without it (log 1). -/
theorem step_idle_or_runCode (s t : State) (hst : step s = .next t) :
    (s.wordIn = [] ∧ t = s) ∨
    (∃ c rest d, s.wordIn = c :: rest ∧ t = runCode d { s with wordIn := rest }) := by
  simp only [step] at hst
  split at hst
  case h_1 idle => cases hst; exact .inl ⟨idle, rfl⟩
  case h_2 c rest offered =>
    split at hst
    case h_1 i _ =>
      obtain ⟨d, e⟩ := exec_eq_runCode i { s with wordIn := rest }
      rw [e] at hst
      cases hst
      exact .inr ⟨c, rest, d, offered, rfl⟩
    case h_2 => cases hst; exact .inr ⟨c, rest, c, offered, rfl⟩

end Sys2Proof.Machine

namespace Sys2Proof.Proofs

open Sys2Proof.Machine

/-- Settles O9: an idle step changes nothing, and the code any other step runs leaves both fields as the taking of the
unit left them. -/
theorem stepTakesOneUnitAndKeepsTheParameters : Obligations.StepTakesOneUnitAndKeepsTheParameters := by
  intro s t hst
  rcases step_idle_or_runCode s t hst with ⟨idle, rfl⟩ | ⟨c, rest, d, offered, rfl⟩
  · simp [idle]
  · obtain ⟨keptCfg, keptIn⟩ := runCode_cfg_wordIn d { s with wordIn := rest }
    exact ⟨keptCfg, by rw [keptIn, offered, List.tail_cons]⟩

end Sys2Proof.Proofs
end

section
/-! SUPPORT and PROOF. What session creation gives each field of the spec's state (R32). -/

namespace Sys2Proof.Machine

@[simp] theorem resetWith_ctx (cfg : Config) : (State.resetWith cfg).ctx = ⟨0#32, false⟩ := rfl
@[simp] theorem resetWith_st (cfg : Config) :
    (State.resetWith cfg).st = ⟨0#120, 0#8, Message.zeroed (resetKindOf cfg), 0#8⟩ := rfl
@[simp] theorem resetWith_aborted (cfg : Config) : (State.resetWith cfg).aborted = false := rfl

/-- The zeroed message, all fields at once (R25). -/
theorem zeroed_eq (k : Kind) : Message.zeroed k = ⟨k, .undefined, 0#16, 0#8, 0#32, 0#64⟩ := rfl

theorem resetKindOf_of_ignoring {cfg : Config} (h : cfg.resetKind = .ignoring) :
    resetKindOf cfg = .ignoring := by
  rw [resetKindOf, h]

theorem resetKindOf_of_undetermined {cfg : Config} (h : cfg.resetKind = .undetermined) :
    resetKindOf cfg = .undetermined := by
  rw [resetKindOf, h]

end Sys2Proof.Machine

namespace Sys2Proof.Proofs

open Sys2Proof.Machine

/-- Settles O56: only `message.kind` depends on a parameter, so the two values of `RESET_KIND` are the two cases. -/
theorem resetValues : Obligations.ResetValues := by
  intro cfg
  refine ⟨resetWith_ctx cfg, ?_, resetWith_aborted cfg⟩
  rw [resetWith_st, zeroed_eq]
  cases kind : cfg.resetKind with
  | ignoring => rw [resetKindOf_of_ignoring kind]
  | undetermined => rw [resetKindOf_of_undetermined kind]

end Sys2Proof.Proofs
end

section
/-! SUPPORT and PROOF. The bit and byte order of the buffer (R54, R55) and of an input word (R52). -/

namespace Sys2Proof.Machine

/-- The 8-bit count does not wrap while the packet has room (R24, log 27). -/
theorem toNat_append_count (st : StreamState) (p : Payload) (room : st.packetBitCount.toNat + 6 ≤ 120) :
    (st.append p).packetBitCount.toNat = st.packetBitCount.toNat + 6 := by
  have noWrap : st.packetBitCount.toNat + 6 < 256 := by omega
  rw [append_count, BitVec.toNat_add]
  exact Nat.mod_eq_of_lt noWrap

/-- Payload bit `j` becomes packet bit `c + j` (R54). -/
theorem getLsbD_append_inside (st : StreamState) (p : Payload) (room : st.packetBitCount.toNat + 6 ≤ 120)
    (j : Nat) (hj : j < 6) :
    (st.append p).packetBits.getLsbD (st.packetBitCount.toNat + j) = p.getLsbD j := by
  rw [append_packetBits, getLsbD_writePayload _ _ _ _ (by omega), if_pos (by omega), Nat.add_sub_cancel_left]

/-- An append leaves every other bit alone (R54); from bit 120 on the buffer has none to change (R23). -/
theorem getLsbD_append_outside (st : StreamState) (p : Payload) (i : Nat)
    (outside : i < st.packetBitCount.toNat ∨ st.packetBitCount.toNat + 6 ≤ i) :
    (st.append p).packetBits.getLsbD i = st.packetBits.getLsbD i := by
  by_cases inBuffer : i < 120
  · rw [append_packetBits, getLsbD_writePayload _ _ _ _ inBuffer, if_neg (by omega)]
  · rw [packetBits_high _ i (by omega), packetBits_high _ i (by omega)]

/-- Bit `j` of byte `n` of the 15-byte view (R55). -/
theorem getLsbD_bufferByte (st : StreamState) (n j : Nat) (hj : j < 8) :
    (st.bufferByte n).getLsbD j = st.packetBits.getLsbD (8 * n + j) := by
  rw [StreamState.bufferByte, BitVec.getLsbD_extractLsb', decide_eq_true hj, Bool.true_and]

/-- Bit `k` of a field that has been read (R55, R100); the zero-extension to 64 bits is above it. -/
theorem getLsbD_field (b : PacketBits) (off w k : Nat) (hk : k < w) (hw : w ≤ 64) :
    ((b.extractLsb' off w).setWidth 64).getLsbD k = b.getLsbD (off + k) := by
  rw [BitVec.getLsbD_setWidth, BitVec.getLsbD_extractLsb', decide_eq_true (by omega : k < 64), decide_eq_true hk,
    Bool.true_and, Bool.true_and]

/-- The byte slices of a word, lowest first (R52). -/
theorem wordSymbols_eq_slices (w : Word) :
    wordSymbols w = [w.extractLsb' 0 8, w.extractLsb' 8 8, w.extractLsb' 16 8, w.extractLsb' 24 8] := rfl

/-- What a word decodes to accepts that same word: cut into its symbols and joined again it is unchanged (R70). -/
theorem exec_decodeWord (w : Word) (s : State) : exec (decodeWord w) s = .next (acceptWord w s) := by
  have accepts : exec (decodeWord w) s = .next (acceptWord
      (wordOfSymbols (wordSymbol w 0) (wordSymbol w 1) (wordSymbol w 2) (wordSymbol w 3)) s) := rfl
  rw [accepts, wordOfSymbols_parts]

/-- A step on a word takes it off the port and accepts it (R130, log 1). -/
theorem step_word (s : State) (w : Word) (rest : List Code) (offered : s.wordIn = .word w :: rest) :
    step s = .next (acceptWord w { s with wordIn := rest }) := by
  have decoded : step s = exec (decodeWord w) { s with wordIn := rest } := by rw [step, offered]; rfl
  rw [decoded, exec_decodeWord]

/-- A word in a running session: its four symbols, then the answer (R130, log 8). -/
theorem acceptWord_running (w : Word) (s : State) (running : s.aborted = false) :
    acceptWord w s = { runSymbols (wordSymbols w) s with wordStatus := .accepted } := by
  rcases acceptWord_cases w s with ⟨aborted, _⟩ | ⟨_, accepted⟩
  · rw [running] at aborted; cases aborted
  · exact accepted

end Sys2Proof.Machine

namespace Sys2Proof.Proofs

open Sys2Proof.Machine

/-- Settles O11: a step accepts the word whole, and acceptance in a running session runs its byte slices. -/
theorem wordSymbolsLowestByteFirst : Obligations.WordSymbolsLowestByteFirst := by
  intro s w rest offered running
  rw [step_word s w rest offered, acceptWord_running w { s with wordIn := rest } running, wordSymbols_eq_slices]

/-- Settles O17: the clause on the `n`-th symbol is the placement at count `6n`. -/
theorem appendPlacesThePayload : Obligations.AppendPlacesThePayload := by
  intro st p room
  refine ⟨toNat_append_count st p room, getLsbD_append_inside st p room, ?_, getLsbD_append_outside st p⟩
  intro n j atSymbol hj
  rw [← atSymbol]
  exact getLsbD_append_inside st p room j hj

/-- Settles O27: `i = 8 (i / 8) + i % 8` places the bit in its byte, and a field in range is its slice of the buffer. -/
theorem bufferByteView : Obligations.BufferByteView := by
  intro st
  constructor
  · intro i hi
    refine ⟨by omega, ?_⟩
    rw [getLsbD_bufferByte st _ _ (Nat.mod_lt i (by decide)), Nat.div_add_mod]
  · intro off w k inPacket hw hk
    rw [extract_some st off w inPacket, Option.map_some, getLsbD_field st.packetBits off w k hk hw]

end Sys2Proof.Proofs
end

section
/-! SUPPORT and PROOF. What the Field Extractor reads (R100). -/

namespace Sys2Proof.Machine

/-- A field that has been read is zero from its width on (R100); no bound on the width is needed. -/
theorem getLsbD_field_high (b : PacketBits) (off w k : Nat) (hk : w ≤ k) :
    ((b.extractLsb' off w).setWidth 64).getLsbD k = false := by
  have aboveField : (b.extractLsb' off w).getLsbD k = false := BitVec.getLsbD_of_ge _ k hk
  rw [BitVec.getLsbD_setWidth, aboveField, Bool.and_false]

end Sys2Proof.Machine

namespace Sys2Proof.Proofs

open Sys2Proof.Machine

/-- Settles O24: a field that fits is its slice of the buffer, read bit by bit below its width and above it. -/
theorem extractReadsThePacketBits : Obligations.ExtractReadsThePacketBits := by
  intro st off w _ hw
  refine ⟨extract_none st off w, ?_⟩
  intro fits
  refine ⟨(st.packetBits.extractLsb' off w).setWidth 64, extract_some st off w fits, ?_, ?_⟩
  · intro j hj
    exact getLsbD_field st.packetBits off w j hj hw
  · intro j hj
    exact getLsbD_field_high st.packetBits off w j hj

end Sys2Proof.Proofs
end

section
/-! SUPPORT. What a table decode makes of each field of the registry (R104, R106, R107, R168): one equation per field,
then what a table that validates says of the length and the type code of its packet. -/

namespace Sys2Proof.Machine

variable (cfg : Config) (st : StreamState)

/-- A terminal field without a validator takes the rest of the packet, at most its destination's width, and ends the
table (R103, R104). -/
theorem decodeFields_terminal (f : FieldDesc) (fs : List FieldDesc) (off : Nat) (cand : Option Kind) (sc : Scratch)
    (m : Message) (terminal : f.srcBits = 0) (unchecked : f.validator = none)
    (inPacket : off ≤ st.packetBitCount.toNat) (v : Raw)
    (hv : v = (st.packetBits.extractLsb' off (min (st.packetBitCount.toNat - off) (8 * f.dstBytes))).setWidth 64) :
    decodeFields cfg st (f :: fs) off cand sc m = ⟨true, cand, sc.write f.slot v, m.write f.slot v⟩ := by
  have fits : off + min (st.packetBitCount.toNat - off) (8 * f.dstBytes) ≤ st.packetBitCount.toNat := by omega
  rw [decodeFields, fieldWidth_terminal f _ _ terminal, extract_some st _ _ fits, ← hv, unchecked]
  simp [validate_none, terminal, candidateOf, Message.writeMapped]

/-- What a terminal field writes is the slice R170 to R180 name, which ends where the packet or the destination
does (R8, R103). -/
theorem setWidth_terminal (b : PacketBits) (off n dst : Nat) (hd : dst ≤ 64) :
    ((b.extractLsb' off (min (n - off) dst)).setWidth 64).setWidth dst =
      (bitSlice b off (min n (off + dst))).setWidth dst := by
  have sameWidth : min n (off + dst) - off = min (n - off) dst := by omega
  rw [BitVec.setWidth_setWidth_of_le _ hd, bitSlice, sameWidth]

/-- A type field that fits is kept in scratch, and the table goes on as `k` exactly on the code of `k` (R106). -/
theorem decodeFields_typeField_fits (k : Kind) (fs : List FieldDesc) (cand : Option Kind) (sc : Scratch) (m : Message)
    (fits : 6 ≤ st.packetBitCount.toNat) :
    decodeFields cfg st (typeField k :: fs) 0 cand sc m =
      if typeCodeOf k = some (st.packetBits.extractLsb' 0 6) then
        decodeFields cfg st fs 6 (some k) { sc with typeCode := (st.packetBits.extractLsb' 0 6).setWidth 8 } m
      else ⟨false, cand, { sc with typeCode := (st.packetBits.extractLsb' 0 6).setWidth 8 }, m⟩ := by
  rw [decodeFields_fixed cfg st (typeField k) fs 0 cand sc m (by simp [typeField])
    (by simpa [typeField] using fits) _ rfl]
  simp [typeField, validate_type, candidateOf, Scratch.write, Message.write, Message.writeMapped]

/-- A branch code that fits is kept in scratch and written through `BRANCH_CODE_MAP` (R106, R107). -/
theorem decodeFields_branchField (fs : List FieldDesc) (off : Nat) (cand : Option Kind) (sc : Scratch) (m : Message)
    (fits : off + 1 ≤ st.packetBitCount.toNat) :
    decodeFields cfg st (branchField :: fs) off cand sc m =
      decodeFields cfg st fs (off + 1) cand { sc with branchCode := (st.packetBits.extractLsb' off 1).setWidth 8 }
        { m with branchKind := branchCodeMap cfg (st.packetBits.extractLsb' off 1) } := by
  rw [decodeFields_fixed cfg st branchField fs off cand sc m (by decide) fits _ rfl]
  simp [branchField, validate_branch, candidateOf, Scratch.write, Message.write, Message.writeMapped]

/-- A `direct_continue` that fits is written as it is (R107). -/
theorem decodeFields_directField (fs : List FieldDesc) (off : Nat) (cand : Option Kind) (sc : Scratch) (m : Message)
    (fits : off + 1 ≤ st.packetBitCount.toNat) :
    decodeFields cfg st (directField :: fs) off cand sc m =
      decodeFields cfg st fs (off + 1) cand sc
        { m with directContinue := (st.packetBits.extractLsb' off 1).setWidth 8 } := by
  rw [decodeFields_fixed cfg st directField fs off cand sc m (by decide) fits _ rfl]
  simp [directField, validate_none, candidateOf, Scratch.write, Message.write, Message.writeMapped,
    Message.setDirectContinue]

/-- An event code that fits is kept in scratch, and the table goes on exactly on 0xa (R106). -/
theorem decodeFields_eventField (fs : List FieldDesc) (off : Nat) (cand : Option Kind) (sc : Scratch) (m : Message)
    (fits : off + 6 ≤ st.packetBitCount.toNat) :
    decodeFields cfg st (eventField :: fs) off cand sc m =
      if st.packetBits.extractLsb' off 6 = eventCodeCORR then
        decodeFields cfg st fs (off + 6) cand
          { sc with eventCode := (st.packetBits.extractLsb' off 6).setWidth 8 } m
      else ⟨false, cand, { sc with eventCode := (st.packetBits.extractLsb' off 6).setWidth 8 }, m⟩ := by
  rw [decodeFields_fixed cfg st eventField fs off cand sc m (by decide) fits _ rfl]
  simp [eventField, validate_event, candidateOf, Scratch.write, Message.write, Message.writeMapped]

/-- The count takes what is left of the packet, at most 16 bits (R103, R108). -/
theorem decodeFields_countField (fs : List FieldDesc) (off : Nat) (cand : Option Kind) (sc : Scratch) (m : Message)
    (inPacket : off ≤ st.packetBitCount.toNat) :
    decodeFields cfg st (countField :: fs) off cand sc m = ⟨true, cand, sc, { m with
      instructionCount :=
        (bitSlice st.packetBits off (min st.packetBitCount.toNat (off + 16))).setWidth 16 }⟩ := by
  rw [decodeFields_terminal cfg st countField fs off cand sc m rfl rfl inPacket _ rfl,
    ← setWidth_terminal _ _ _ 16 (by decide)]
  rfl

/-- The address takes what is left of the packet, at most 32 bits (R103, R108). -/
theorem decodeFields_addressField (fs : List FieldDesc) (off : Nat) (cand : Option Kind) (sc : Scratch) (m : Message)
    (inPacket : off ≤ st.packetBitCount.toNat) :
    decodeFields cfg st (addressField :: fs) off cand sc m = ⟨true, cand, sc, { m with
      address := (bitSlice st.packetBits off (min st.packetBitCount.toNat (off + 32))).setWidth 32 }⟩ := by
  rw [decodeFields_terminal cfg st addressField fs off cand sc m rfl rfl inPacket _ rfl,
    ← setWidth_terminal _ _ _ 32 (by decide)]
  rfl

/-- A scratch write to another slot leaves the type code alone (R107). -/
theorem scratch_write_typeCode (sc : Scratch) (slot : Slot) (raw : Raw) (other : slot ≠ .typeCode) :
    (sc.write slot raw).typeCode = sc.typeCode := by
  cases slot with
  | typeCode => exact absurd rfl other
  | branchCode | eventCode | directContinue | instructionCount | address | timestamp => rfl

/-- Fields with other slots leave the scratch type code alone, validated or not (R105, R107). -/
theorem decodeFields_typeCode (fs : List FieldDesc) (off : Nat) (cand : Option Kind) (sc : Scratch) (m : Message)
    (others : ∀ f ∈ fs, f.slot ≠ .typeCode) :
    (decodeFields cfg st fs off cand sc m).scratch.typeCode = sc.typeCode := by
  induction fs generalizing off cand sc m with
  | nil => rfl
  | cons f fs ih =>
    have kept (raw : Raw) := scratch_write_typeCode sc f.slot raw (others f List.mem_cons_self)
    rw [decodeFields]
    split
    case h_1 => rfl
    case h_2 raw _ =>
      split
      · exact kept raw
      · split
        · exact kept raw
        · rw [ih _ _ _ _ (fun g hg => others g (List.mem_cons_of_mem f hg)), kept raw]

/-- A packet 0 long enough for its type code leaves it in scratch, whatever becomes of the table (R104, R105). -/
theorem decodeTable_typeCode (k : Kind) (fs : List FieldDesc) (others : ∀ f ∈ fs, f.slot ≠ .typeCode)
    (fits : 6 ≤ st.packetBitCount.toNat) :
    (decodeTable cfg st (typeField k :: fs)).scratch.typeCode = (st.packetBits.extractLsb' 0 6).setWidth 8 := by
  rw [decodeTable, decodeFields_typeField_fits cfg st k fs _ _ _ fits]
  split
  · exact decodeFields_typeCode cfg st fs _ _ _ _ others
  · rfl

/-- A packet 0 of the right type goes on behind the type code (R104). -/
theorem decodeTable_typed (k : Kind) (code : BitVec 6) (hk : typeCodeOf k = some code) (fs : List FieldDesc)
    (typed : st.packetBits.extractLsb' 0 6 = code) (fits : 6 ≤ st.packetBitCount.toNat) :
    decodeTable cfg st (typeField k :: fs) = decodeFields cfg st fs 6 (some k)
      { Scratch.start with typeCode := (st.packetBits.extractLsb' 0 6).setWidth 8 } st.message := by
  rw [decodeTable, decodeFields_typeField_fits cfg st k fs _ _ _ fits, if_pos (by rw [hk, typed])]

/-- A table that validates has found all its fixed fields in the packet (R100, R104). -/
theorem decodeFields_ok_fits (fs gs : List FieldDesc) (off : Nat) (cand : Option Kind) (sc : Scratch) (m : Message)
    (fixed : ∀ f ∈ fs, f.srcBits ≠ 0) (inPacket : off ≤ st.packetBitCount.toNat)
    (valid : (decodeFields cfg st (fs ++ gs) off cand sc m).ok = true) :
    off + (fs.map FieldDesc.srcBits).sum ≤ st.packetBitCount.toNat := by
  induction fs generalizing off cand sc m with
  | nil => exact inPacket
  | cons f fs ih =>
    have hf : f.srcBits ≠ 0 := fixed f List.mem_cons_self
    rw [List.cons_append] at valid
    by_cases fits : off + f.srcBits ≤ st.packetBitCount.toNat
    · rw [decodeFields_fixed cfg st f _ _ _ _ _ hf fits _ rfl] at valid
      split at valid
      · rw [List.map_cons, List.sum_cons, ← Nat.add_assoc]
        exact ih _ _ _ _ (fun g hg => fixed g (List.mem_cons_of_mem f hg)) fits valid
      · cases valid
    · rw [decodeFields_short cfg st f _ _ _ _ _ hf (Nat.lt_of_not_le fits)] at valid
      cases valid

/-- A packet 0 whose table validates has the type code of the kind and is no shorter than the fixed fields (R104,
R106). -/
theorem decodeTable_ok_typed_fits (k : Kind) (code : BitVec 6) (hk : typeCodeOf k = some code)
    (fs gs : List FieldDesc) (fixed : ∀ f ∈ fs, f.srcBits ≠ 0)
    (valid : (decodeTable cfg st (typeField k :: (fs ++ gs))).ok = true) :
    st.packetBits.extractLsb' 0 6 = code ∧ 6 + (fs.map FieldDesc.srcBits).sum ≤ st.packetBitCount.toNat := by
  rw [decodeTable] at valid
  by_cases passed : typeCodeOf k = some (st.packetBits.extractLsb' 0 6) ∧ 6 ≤ st.packetBitCount.toNat
  · obtain ⟨typed, fits⟩ := passed
    rw [decodeFields_typeField_fits cfg st k _ _ _ _ fits, if_pos typed] at valid
    rw [hk, Option.some_inj] at typed
    exact ⟨typed.symm, decodeFields_ok_fits cfg st fs gs 6 _ _ _ fixed fits valid⟩
  · rw [not_and_or, Nat.not_le] at passed
    have failed := (decodeFields_typeField cfg st k (fs ++ gs) none Scratch.start st.message passed).1
    rw [failed] at valid
    cases valid

end Sys2Proof.Machine
end

section
/-! SUPPORT and PROOF. The tables of packet 0 (R170, R173, R176, R179) and of the address packets (R171, R174, R177). -/

namespace Sys2Proof.Machine

variable (cfg : Config) (st : StreamState)

/-- `IB.P0` on a packet of its type that holds the branch code (R170). -/
theorem decodeTable_ibP0 (typed : st.packetBits.extractLsb' 0 6 = 4#6) (fits : 7 ≤ st.packetBitCount.toNat) :
    decodeTable cfg st (table .indirectBranch 0) = ⟨true, some .indirectBranch,
      { Scratch.start with
        typeCode := (st.packetBits.extractLsb' 0 6).setWidth 8
        branchCode := (st.packetBits.extractLsb' 6 1).setWidth 8 },
      { st.message with
        branchKind := branchCodeMap cfg (st.packetBits.extractLsb' 6 1)
        instructionCount := (bitSlice st.packetBits 7 (min st.packetBitCount.toNat 23)).setWidth 16 }⟩ := by
  rw [table, decodeTable_typed cfg st _ _ rfl _ typed (by omega),
    decodeFields_branchField cfg st _ _ _ _ _ fits, decodeFields_countField cfg st _ _ _ _ _ fits]

/-- `IBS.P0` on a packet of its type that holds `direct_continue`: what remains to decode (R173). -/
theorem decodeTable_ibsP0_direct (typed : st.packetBits.extractLsb' 0 6 = 12#6)
    (fits : 7 ≤ st.packetBitCount.toNat) :
    decodeTable cfg st (table .indirectBranchSync 0) =
      decodeFields cfg st [branchField, countField] 7 (some .indirectBranchSync)
        { Scratch.start with typeCode := (st.packetBits.extractLsb' 0 6).setWidth 8 }
        { st.message with directContinue := (st.packetBits.extractLsb' 6 1).setWidth 8 } := by
  rw [table, decodeTable_typed cfg st _ _ rfl _ typed (by omega),
    decodeFields_directField cfg st _ _ _ _ _ fits]

/-- `IBS.P0` on a packet of its type that holds the branch code too (R173). -/
theorem decodeTable_ibsP0 (typed : st.packetBits.extractLsb' 0 6 = 12#6) (fits : 8 ≤ st.packetBitCount.toNat) :
    decodeTable cfg st (table .indirectBranchSync 0) = ⟨true, some .indirectBranchSync,
      { Scratch.start with
        typeCode := (st.packetBits.extractLsb' 0 6).setWidth 8
        branchCode := (st.packetBits.extractLsb' 7 1).setWidth 8 },
      { st.message with
        directContinue := (st.packetBits.extractLsb' 6 1).setWidth 8
        branchKind := branchCodeMap cfg (st.packetBits.extractLsb' 7 1)
        instructionCount := (bitSlice st.packetBits 8 (min st.packetBitCount.toNat 24)).setWidth 16 }⟩ := by
  rw [decodeTable_ibsP0_direct cfg st typed (by omega), decodeFields_branchField cfg st _ _ _ _ _ fits,
    decodeFields_countField cfg st _ _ _ _ _ fits]

/-- `IBS.P0` on a packet of its type that ends before the branch code: `direct_continue` stays written (R105, R173). -/
theorem decodeTable_ibsP0_short (typed : st.packetBits.extractLsb' 0 6 = 12#6)
    (ends : st.packetBitCount.toNat = 7) :
    decodeTable cfg st (table .indirectBranchSync 0) = ⟨false, some .indirectBranchSync,
      { Scratch.start with typeCode := (st.packetBits.extractLsb' 0 6).setWidth 8 },
      { st.message with directContinue := (st.packetBits.extractLsb' 6 1).setWidth 8 }⟩ := by
  rw [decodeTable_ibsP0_direct cfg st typed ends.ge,
    decodeFields_short cfg st branchField _ _ _ _ _ (by decide) (by rw [ends]; decide)]

/-- `SYNC.P0` on a packet of its type that holds `direct_continue` (R176). -/
theorem decodeTable_syncP0 (typed : st.packetBits.extractLsb' 0 6 = 9#6) (fits : 7 ≤ st.packetBitCount.toNat) :
    decodeTable cfg st (table .sync 0) = ⟨true, some .sync,
      { Scratch.start with typeCode := (st.packetBits.extractLsb' 0 6).setWidth 8 },
      { st.message with
        directContinue := (st.packetBits.extractLsb' 6 1).setWidth 8
        instructionCount := (bitSlice st.packetBits 7 (min st.packetBitCount.toNat 23)).setWidth 16 }⟩ := by
  rw [table, decodeTable_typed cfg st _ _ rfl _ typed (by omega),
    decodeFields_directField cfg st _ _ _ _ _ fits, decodeFields_countField cfg st _ _ _ _ _ fits]

/-- `CORR.P0` on a packet of its type that holds the event code: it validates exactly on 0xa (R106, R179). -/
theorem decodeTable_corrP0 (typed : st.packetBits.extractLsb' 0 6 = 33#6) (fits : 12 ≤ st.packetBitCount.toNat) :
    decodeTable cfg st (table .correction 0) =
      ⟨decide (st.packetBits.extractLsb' 6 6 = 0xa#6), some .correction,
        { Scratch.start with
          typeCode := (st.packetBits.extractLsb' 0 6).setWidth 8
          eventCode := (st.packetBits.extractLsb' 6 6).setWidth 8 },
        if st.packetBits.extractLsb' 6 6 = 0xa#6 then
          { st.message with
            instructionCount := (bitSlice st.packetBits 12 (min st.packetBitCount.toNat 28)).setWidth 16 }
        else st.message⟩ := by
  rw [table, decodeTable_typed cfg st _ _ rfl _ typed (by omega),
    decodeFields_eventField cfg st _ _ _ _ _ fits, decodeFields_countField cfg st _ _ _ _ _ fits, eventCodeCORR]
  by_cases event : st.packetBits.extractLsb' 6 6 = 0xa#6
  · simp only [event, if_true, decide_true]
  · simp only [event, if_false, decide_false]

/-- The three address packets have one table (R168). -/
theorem table_one_address (k : Kind) (hk : k = .indirectBranch ∨ k = .indirectBranchSync ∨ k = .sync) :
    table k 1 = [addressField] := by
  rcases hk with rfl | rfl | rfl <;> rfl

end Sys2Proof.Machine

namespace Sys2Proof.Proofs

open Sys2Proof.Machine

/-- Settles O29: a table that validates has its type and seven bits, and with them the decode is `decodeTable_ibP0`. -/
theorem ibP0TableDecodes : Obligations.IbP0TableDecodes := by
  intro cfg st b n r
  refine ⟨decodeTable_typeCode cfg st .indirectBranch [branchField, countField] (by decide), ⟨?_, ?_⟩, ?_⟩
  · intro valid
    exact decodeTable_ok_typed_fits cfg st .indirectBranch 4#6 rfl [branchField] [countField] (by decide) valid
  · rintro ⟨typed, fits⟩
    rw [show r = _ from decodeTable_ibP0 cfg st typed fits]
  · intro typed fits
    rw [show r = _ from decodeTable_ibP0 cfg st typed fits]
    exact ⟨rfl, rfl, rfl⟩

/-- Settles O30: at seven bits the decode is `decodeTable_ibsP0_short`, from eight on `decodeTable_ibsP0`. -/
theorem ibsP0TableDecodes : Obligations.IbsP0TableDecodes := by
  intro cfg st b n r
  refine ⟨decodeTable_typeCode cfg st .indirectBranchSync [directField, branchField, countField] (by decide), ?_,
    ⟨?_, ?_⟩, ?_⟩
  · intro typed fits
    rcases Nat.eq_or_lt_of_le fits with ends | longer
    · rw [show r = _ from decodeTable_ibsP0_short cfg st typed ends.symm]
    · rw [show r = _ from decodeTable_ibsP0 cfg st typed longer]
  · intro valid
    exact decodeTable_ok_typed_fits cfg st .indirectBranchSync 12#6 rfl [directField, branchField] [countField]
      (by decide) valid
  · rintro ⟨typed, fits⟩
    rw [show r = _ from decodeTable_ibsP0 cfg st typed fits]
  · intro typed fits
    rw [show r = _ from decodeTable_ibsP0 cfg st typed fits]
    exact ⟨rfl, rfl, rfl⟩

/-- Settles O31: a table that validates has its type and seven bits, and with them the decode is
`decodeTable_syncP0`. -/
theorem syncP0TableDecodes : Obligations.SyncP0TableDecodes := by
  intro cfg st b n r
  refine ⟨decodeTable_typeCode cfg st .sync [directField, countField] (by decide), ⟨?_, ?_⟩, ?_⟩
  · intro valid
    exact decodeTable_ok_typed_fits cfg st .sync 9#6 rfl [directField] [countField] (by decide) valid
  · rintro ⟨typed, fits⟩
    rw [show r = _ from decodeTable_syncP0 cfg st typed fits]
  · intro typed fits
    rw [show r = _ from decodeTable_syncP0 cfg st typed fits]
    exact ⟨rfl, rfl⟩

/-- Settles O32: a table that validates has its type and twelve bits, and with them the decode is
`decodeTable_corrP0`, which turns on the event code alone. -/
theorem corrP0TableDecodes : Obligations.CorrP0TableDecodes := by
  intro cfg st b n r
  refine ⟨decodeTable_typeCode cfg st .correction [eventField, countField] (by decide), ?_, ⟨?_, ?_⟩, ?_⟩
  · intro typed fits
    rw [show r = _ from decodeTable_corrP0 cfg st typed fits]
  · intro valid
    obtain ⟨typed, fits⟩ :=
      decodeTable_ok_typed_fits cfg st .correction 33#6 rfl [eventField] [countField] (by decide) valid
    rw [show r = _ from decodeTable_corrP0 cfg st typed fits] at valid
    exact ⟨typed, fits, of_decide_eq_true valid⟩
  · rintro ⟨typed, fits, event⟩
    rw [show r = _ from decodeTable_corrP0 cfg st typed fits]
    exact decide_eq_true event
  · intro typed fits event
    rw [show r = _ from decodeTable_corrP0 cfg st typed fits]
    exact ⟨rfl, if_pos event⟩

/-- Settles O33: the address is the only field of its table and starts at bit 0, so no packet is too short for it. -/
theorem addressTablesDecode : Obligations.AddressTablesDecode := by
  intro cfg st k hk
  rw [table_one_address k hk, decodeTable, decodeFields_addressField cfg st _ _ _ _ _ (Nat.zero_le _)]
  exact ⟨rfl, rfl⟩

end Sys2Proof.Proofs
end

section
/-! SUPPORT and PROOF. The Address Tracker: what one interpretation answers for each message kind other than
IndirectBranch, and how its answer enters the state (R200). -/

namespace Sys2Proof.Machine

/-- `Interpret` writes the next context and appends the events of the message's own interpretation, always
succeeds (R206), and touches no other field. -/
theorem interpret_of_interpMessage (s : State) (next : TrackingContext) (evs : List Event)
    (h : interpMessage s.st.message s.ctx = ⟨next, evs⟩) :
    interpret s = ⟨{ s with ctx := next, eventOut := s.eventOut ++ evs }, true⟩ := by
  rw [interpret, h]; rfl

/-- R203: the absolute address, `valid`, and a Branch event from the live advance whatever `valid` was. -/
theorem interpMessage_indirectBranchSync (m : Message) (old : TrackingContext) (h : m.kind = .indirectBranchSync) :
    interpMessage m old =
      ⟨⟨m.address, true⟩, [.branch (liveAdvance old m) m.address m.branchKind m.timestamp]⟩ := by
  rw [interpMessage, h]; rfl

/-- R204: the absolute address, `valid`, and a Sync event; the old context is not read. -/
theorem interpMessage_sync (m : Message) (old : TrackingContext) (h : m.kind = .sync) :
    interpMessage m old = ⟨⟨m.address, true⟩, [.sync m.address m.timestamp]⟩ := by
  rw [interpMessage, h]; rfl

/-- R205: the context stays and nothing is emitted. -/
theorem interpMessage_correction (m : Message) (old : TrackingContext) (h : m.kind = .correction) :
    interpMessage m old = ⟨old, []⟩ := by
  rw [interpMessage, h]; rfl

end Sys2Proof.Machine

namespace Sys2Proof.Proofs

open Sys2Proof.Machine

/-- Settles O47: each clause is the kind's interpretation, entered into the state; a Correction enters the old context
and no event, which is no change. -/
theorem absoluteAndCorrectionInterpretations : Obligations.AbsoluteAndCorrectionInterpretations := by
  intro s
  refine ⟨fun isIBS => ?_, fun isSync => ?_, fun isCorrection => ?_⟩
  · exact interpret_of_interpMessage s _ _ (interpMessage_indirectBranchSync _ _ isIBS)
  · exact interpret_of_interpMessage s _ _ (interpMessage_sync _ _ isSync)
  · rw [interpret_of_interpMessage s _ _ (interpMessage_correction _ _ isCorrection), List.append_nil]

end Sys2Proof.Proofs
end

section
/-! SUPPORT and PROOF. The encoding: a symbol and its class (R71, R72), the fields of each packet layout (R76), and the
two round trips between instructions and codes. -/

namespace Sys2Proof.Machine

/-- The mask of the opcode table reads the two control bits of a symbol (R72). -/
theorem and_three_eq_iff (b : Symbol) (c : Control) :
    b &&& 0x03#8 = c.setWidth 8 ↔ symEop b = c.getLsbD 0 ∧ symEom b = c.getLsbD 1 := by
  rw [symEop_eq, symEom_eq]
  constructor
  · intro masked
    have bit0 := congrArg (BitVec.getLsbD · 0) masked
    have bit1 := congrArg (BitVec.getLsbD · 1) masked
    simpa using And.intro bit0 bit1
  · rintro ⟨bit0, bit1⟩
    apply symbol_ext
    intro i hi
    rw [BitVec.getLsbD_and, BitVec.getLsbD_setWidth]
    match i with
    | 0 => simpa using bit0
    | 1 => simpa using bit1
    | j + 2 =>
      have maskHigh : ∀ n, n < 8 → 2 ≤ n → (0x03#8).getLsbD n = false := by decide
      rw [maskHigh _ hi (by omega), BitVec.getLsbD_of_ge c _ (by simp), Bool.and_false, Bool.and_false]

/-- The four classes of a symbol, by its control bits (R72). -/
theorem decodeSymbol_data {b : Symbol} (eop : symEop b = false) (eom : symEom b = false) :
    decodeSymbol b = .symData (symPayload b) := by
  rw [decodeSymbol, eop, eom]

theorem decodeSymbol_eop {b : Symbol} (eop : symEop b = true) (eom : symEom b = false) :
    decodeSymbol b = .symEop (symPayload b) := by
  rw [decodeSymbol, eop, eom]

theorem decodeSymbol_eom {b : Symbol} (eop : symEop b = false) (eom : symEom b = true) :
    decodeSymbol b = .symEom (symPayload b) := by
  rw [decodeSymbol, eop, eom]

theorem decodeSymbol_eopm {b : Symbol} (eop : symEop b = true) (eom : symEom b = true) :
    decodeSymbol b = .symEopm (symPayload b) := by
  rw [decodeSymbol, eop, eom]

/-- A symbol is its payload with the control bits it has (R71). -/
theorem symbolOf_symPayload {b : Symbol} {c : Control} (eop : symEop b = c.getLsbD 0) (eom : symEom b = c.getLsbD 1) :
    symbolOf (symPayload b) c = b := by
  have control : symControl b = c := by
    apply BitVec.eq_of_getLsbD_eq
    intro i hi
    rw [symControl_eq, BitVec.getLsbD_extractLsb']
    match i with
    | 0 => simpa [symEop_eq] using eop
    | 1 => simpa [symEom_eq] using eom
    | j + 2 => exact absurd (show j + 2 < 2 from hi) (by omega)
  rw [← control, symbolOf_parts]

/-- A symbol is the encoding of what it decodes to (R71, R72). -/
theorem encode_decodeSymbol (b : Symbol) :
    (decodeSymbol b).WellFormed ∧ encode (decodeSymbol b) = .symbol b := by
  cases eop : symEop b <;> cases eom : symEom b
  · rw [decodeSymbol_data eop eom]
    exact ⟨rfl, congrArg Code.symbol (symbolOf_symPayload eop eom)⟩
  · rw [decodeSymbol_eom eop eom]
    exact ⟨rfl, congrArg Code.symbol (symbolOf_symPayload eop eom)⟩
  · rw [decodeSymbol_eop eop eom]
    exact ⟨rfl, congrArg Code.symbol (symbolOf_symPayload eop eom)⟩
  · rw [decodeSymbol_eopm eop eom]
    exact ⟨rfl, congrArg Code.symbol (symbolOf_symPayload eop eom)⟩

/-- A word of four symbols decodes to them (R70). -/
theorem decodeWord_wordOfSymbols (s0 s1 s2 s3 : Symbol) :
    decodeWord (wordOfSymbols s0 s1 s2 s3) = .word s0 s1 s2 s3 := by
  have symbols := wordSymbols_wordOfSymbols s0 s1 s2 s3
  simp only [wordSymbols_eq, List.cons.injEq, and_true] at symbols
  obtain ⟨h0, h1, h2, h3⟩ := symbols
  rw [decodeWord, h0, h1, h2, h3]

/-- The fields of `IB.P0` in its bits (R76). -/
theorem packetBitsOf_ibP0_fields (len : Nat) (bc : BitVec 1) (count : BitVec 113) :
    (packetBitsOf (.ibP0 len bc count)).extractLsb' 0 6 = 4#6 ∧
    (packetBitsOf (.ibP0 len bc count)).extractLsb' 6 1 = bc ∧
    (packetBitsOf (.ibP0 len bc count)).extractLsb' 7 113 = count :=
  ⟨extractLsb'_append_low (count ++ bc) typeIB,
   (extractLsb'_append_skip (count ++ bc) typeIB 0 1).trans (extractLsb'_append_low count bc),
   (extractLsb'_append_skip (count ++ bc) typeIB 1 113).trans (extractLsb'_append_high count bc)⟩

/-- The fields of `IBS.P0` in its bits (R76). -/
theorem packetBitsOf_ibsP0_fields (len : Nat) (dc bc : BitVec 1) (count : BitVec 112) :
    (packetBitsOf (.ibsP0 len dc bc count)).extractLsb' 0 6 = 12#6 ∧
    (packetBitsOf (.ibsP0 len dc bc count)).extractLsb' 6 1 = dc ∧
    (packetBitsOf (.ibsP0 len dc bc count)).extractLsb' 7 1 = bc ∧
    (packetBitsOf (.ibsP0 len dc bc count)).extractLsb' 8 112 = count :=
  ⟨extractLsb'_append_low (count ++ bc ++ dc) typeIBS,
   (extractLsb'_append_skip (count ++ bc ++ dc) typeIBS 0 1).trans (extractLsb'_append_low (count ++ bc) dc),
   ((extractLsb'_append_skip (count ++ bc ++ dc) typeIBS 1 1).trans
     (extractLsb'_append_skip (count ++ bc) dc 0 1)).trans (extractLsb'_append_low count bc),
   ((extractLsb'_append_skip (count ++ bc ++ dc) typeIBS 2 112).trans
     (extractLsb'_append_skip (count ++ bc) dc 1 112)).trans (extractLsb'_append_high count bc)⟩

/-- The fields of `SYNC.P0` in its bits (R76). -/
theorem packetBitsOf_syncP0_fields (len : Nat) (dc : BitVec 1) (count : BitVec 113) :
    (packetBitsOf (.syncP0 len dc count)).extractLsb' 0 6 = 9#6 ∧
    (packetBitsOf (.syncP0 len dc count)).extractLsb' 6 1 = dc ∧
    (packetBitsOf (.syncP0 len dc count)).extractLsb' 7 113 = count :=
  ⟨extractLsb'_append_low (count ++ dc) typeSYNC,
   (extractLsb'_append_skip (count ++ dc) typeSYNC 0 1).trans (extractLsb'_append_low count dc),
   (extractLsb'_append_skip (count ++ dc) typeSYNC 1 113).trans (extractLsb'_append_high count dc)⟩

/-- The fields of `CORR.P0` in its bits (R76). -/
theorem packetBitsOf_corrP0_fields (len : Nat) (count : BitVec 108) :
    (packetBitsOf (.corrP0 len count)).extractLsb' 0 6 = 33#6 ∧
    (packetBitsOf (.corrP0 len count)).extractLsb' 6 6 = 0xa#6 ∧
    (packetBitsOf (.corrP0 len count)).extractLsb' 12 108 = count :=
  ⟨extractLsb'_append_low (count ++ eventCodeCORR) typeCORR,
   (extractLsb'_append_skip (count ++ eventCodeCORR) typeCORR 0 6).trans
     (extractLsb'_append_low count eventCodeCORR),
   (extractLsb'_append_skip (count ++ eventCodeCORR) typeCORR 6 108).trans
     (extractLsb'_append_high count eventCodeCORR)⟩

/-- No two candidates have one type code (R77). -/
theorem typeCodeOf_injective : ∀ k ∈ priority, ∀ l ∈ priority, typeCodeOf k = typeCodeOf l → k = l := by decide

/-- A format takes only a packet of its type code (R77). -/
theorem typeCodeOf_of_decodePacket0 {k : Kind} {len : Nat} {b : PacketBits} {i : Instr}
    (h : decodePacket0 k len b = some i) : typeCodeOf k = some (b.extractLsb' 0 6) := by
  rw [decodePacket0_eq] at h
  by_contra other
  rw [if_pos other, ite_self] at h
  cases h

/-- The trials of the decoder are a search (R160, R167). -/
theorem decodeCandidates_eq_findSome (len : Nat) (b : PacketBits) (ks : List Kind) :
    decodeCandidates len b ks = ks.findSome? (decodePacket0 · len b) := by
  induction ks with
  | nil => rfl
  | cons k ks ih =>
    rw [decodeCandidates, List.findSome?_cons, ih]
    cases decodePacket0 k len b <;> rfl

/-- The type code selects the format, so the order of the candidates does not matter (R77, R167). -/
theorem decodeCandidates_eq_some_iff (len : Nat) (b : PacketBits) (i : Instr) :
    decodeCandidates len b priority = some i ↔ ∃ k ∈ priority, decodePacket0 k len b = some i := by
  rw [decodeCandidates_eq_findSome]
  constructor
  · exact List.exists_of_findSome?_eq_some
  · rintro ⟨k, hk, taken⟩
    cases found : priority.findSome? (decodePacket0 · len b) with
    | none =>
      rw [List.findSome?_eq_none_iff.1 found k hk] at taken
      cases taken
    | some j =>
      obtain ⟨l, hl, takenToo⟩ := List.exists_of_findSome?_eq_some found
      have sameType := (typeCodeOf_of_decodePacket0 takenToo).trans (typeCodeOf_of_decodePacket0 taken).symm
      rw [typeCodeOf_injective l hl k hk sameType, taken] at takenToo
      exact takenToo.symm

/-- In `Undetermined` a packet of legal length decodes as packet 0 of some candidate (R160). -/
theorem decodePacket_undetermined (index : U8) (ps : List Payload) (hpos : 1 ≤ ps.length) (hle : ps.length ≤ 20) :
    decodePacket .undetermined index ps =
      orReject .noKind (decodeCandidates ps.length (payloadsToBits ps) priority) := by
  have nonempty : ps.length ≠ 0 := by omega
  have fits : ¬ maxAppends < ps.length := Nat.not_lt.mpr hle
  simp [decodePacket, nonempty, -List.length_eq_zero_iff, fits]

/-- In a determined kind a packet after packet 0 decodes by its index (R163). -/
theorem decodePacket_later {k : Kind} {index : U8} {ps : List Payload} (hk : k ≠ .ignoring ∧ k ≠ .undetermined)
    (hi : index ≠ 0#8) (hpos : 1 ≤ ps.length) (hle : ps.length ≤ 20) :
    decodePacket k index ps = orReject .excessPacket (decodeLater k index.toNat ps.length (payloadsToBits ps)) := by
  have nonempty : ps.length ≠ 0 := by omega
  have fits : ¬ maxAppends < ps.length := Nat.not_lt.mpr hle
  simp [decodePacket, nonempty, -List.length_eq_zero_iff, fits, hk, hi]

theorem orReject_eq_instr_iff (r : Reject) (o : Option Instr) (i : Instr) :
    orReject r o = .instr i ↔ o = some i := by
  cases o <;> simp [orReject]

/-- A packet that decodes has a legal length and a format that takes it (R73, R160). -/
theorem decodePacket_cases {k : Kind} {index : U8} {ps : List Payload} {i : Instr}
    (h : decodePacket k index ps = .instr i) :
    (1 ≤ ps.length ∧ ps.length ≤ 20) ∧
    ((∃ l, decodePacket0 l ps.length (payloadsToBits ps) = some i) ∨
      decodeLater k index.toNat ps.length (payloadsToBits ps) = some i) := by
  simp only [decodePacket] at h
  split at h
  · cases h
  split at h
  · cases h
  next nonempty =>
  split at h
  · cases h
  next fits =>
  refine ⟨⟨Nat.one_le_iff_ne_zero.2 nonempty, Nat.not_lt.1 fits⟩, ?_⟩
  split at h
  · rw [orReject_eq_instr_iff, decodeCandidates_eq_some_iff] at h
    obtain ⟨l, _, taken⟩ := h
    exact .inl ⟨l, taken⟩
  · split at h <;> rw [orReject_eq_instr_iff] at h
    · exact .inl ⟨k, h⟩
    · exact .inr h

/-- `i` is a well-formed packet instruction of `len` symbols with the bits `b` (R73, R76). -/
structure PacketInstr (i : Instr) (len : Nat) (b : PacketBits) : Prop where
  wellFormed : i.WellFormed
  isPacket : encode i = .packet (packetPayloads i)
  length : packetLenOf i = len
  bits : packetBitsOf i = b

/-- A packet instruction encodes to the payloads its length and bits came from (R83). -/
theorem PacketInstr.encode_eq {i : Instr} {ps : List Payload} (hle : ps.length ≤ 20)
    (h : PacketInstr i ps.length (payloadsToBits ps)) : encode i = .packet ps := by
  rw [h.isPacket, packetPayloads, h.length, h.bits, bitsToPayloads_payloadsToBits ps hle]

/-- What a format of packet 0 answers is the packet it was given (R76, R186). -/
theorem packetInstr_of_decodePacket0 {k : Kind} {len : Nat} {b : PacketBits} {i : Instr} (hle : len ≤ 20)
    (hb : b.toNat < 2 ^ (6 * len)) (h : decodePacket0 k len b = some i) : PacketInstr i len b := by
  have typed := typeCodeOf_of_decodePacket0 h
  have tailOf (lo w : Nat) (hlo : lo ≤ 6 * len) := toNat_extractLsb'_lt b _ hb lo w hlo
  have whole : b.extractLsb' 0 120 = b := by simp
  rw [decodePacket0_eq] at h
  split at h
  · cases h
  next hlen =>
  rw [if_neg (not_not.2 typed)] at h
  have hmin : 2 ≤ len := by omega
  cases k with
  | ignoring | undetermined => cases h
  | indirectBranch =>
    cases h
    refine ⟨(tailFits_iff ..).2 ⟨hmin, hle, tailOf 7 113 (by omega)⟩, rfl, rfl, ?_⟩
    rw [packetBitsOf, Option.some.inj typed, extractLsb'_join b 6 1 113 rfl, extractLsb'_join b 0 6 114 rfl, whole]
  | indirectBranchSync =>
    cases h
    refine ⟨(tailFits_iff ..).2 ⟨hmin, hle, tailOf 8 112 (by omega)⟩, rfl, rfl, ?_⟩
    rw [packetBitsOf, Option.some.inj typed, extractLsb'_join b 7 1 112 rfl, extractLsb'_join b 6 1 113 rfl,
      extractLsb'_join b 0 6 114 rfl, whole]
  | sync =>
    cases h
    refine ⟨(tailFits_iff ..).2 ⟨hmin, hle, tailOf 7 113 (by omega)⟩, rfl, rfl, ?_⟩
    rw [packetBitsOf, Option.some.inj typed, extractLsb'_join b 6 1 113 rfl, extractLsb'_join b 0 6 114 rfl, whole]
  | correction =>
    simp only at h
    split at h
    next event =>
      cases h
      refine ⟨(tailFits_iff ..).2 ⟨hmin, hle, tailOf 12 108 (by omega)⟩, rfl, rfl, ?_⟩
      rw [packetBitsOf, ← event, Option.some.inj typed, extractLsb'_join b 6 6 108 rfl,
        extractLsb'_join b 0 6 114 rfl, whole]
    next => cases h

/-- So is what a later format answers (R171 to R180). -/
theorem packetInstr_of_decodeLater {k : Kind} {index len : Nat} {b : PacketBits} {i : Instr} (hpos : 1 ≤ len)
    (hle : len ≤ 20) (hb : b.toNat < 2 ^ (6 * len)) (h : decodeLater k index len b = some i) :
    PacketInstr i len b := by
  have fits : tailFits minPacketLen len 0 b = true := (tailFits_iff ..).2 ⟨hpos, hle, hb⟩
  unfold decodeLater at h
  split at h <;> cases h <;> exact ⟨fits, rfl, rfl, rfl⟩

/-- A well-formed packet 0 in `Undetermined` decodes to itself (R160, R186). -/
theorem decode_packetPayloads_zero (i : Instr) (index : U8) (wf : i.WellFormed)
    (len : 2 ≤ packetLenOf i ∧ packetLenOf i ≤ 20) (k : Kind) (hk : k ∈ priority)
    (format : decodePacket0 k (packetLenOf i) (packetBitsOf i) = some i) :
    decode .undetermined index (.packet (packetPayloads i)) = .instr i := by
  obtain ⟨hmin, hle⟩ := len
  have count := length_packetPayloads i
  rw [decode, decodePacket_undetermined index _ (by omega) (by omega), orReject_eq_instr_iff,
    decodeCandidates_eq_some_iff, count, payloadsToBits_packetPayloads i wf]
  exact ⟨k, hk, format⟩

/-- A well-formed later packet in its context decodes to itself (R163). -/
theorem decode_packetPayloads_later (i : Instr) (k : Kind) (index : U8) (wf : i.WellFormed)
    (len : 1 ≤ packetLenOf i ∧ packetLenOf i ≤ 20) (hk : k ≠ .ignoring ∧ k ≠ .undetermined) (hi : index ≠ 0#8)
    (format : decodeLater k index.toNat (packetLenOf i) (packetBitsOf i) = some i) :
    decode k index (.packet (packetPayloads i)) = .instr i := by
  obtain ⟨hmin, hle⟩ := len
  have count := length_packetPayloads i
  rw [decode, decodePacket_later hk hi (by omega) (by omega), orReject_eq_instr_iff, count,
    payloadsToBits_packetPayloads i wf, format]

/-- Each format of packet 0 takes the bits of its own row (R170, R173, R176, R179). -/
theorem decodePacket0_ibP0 (len : Nat) (bc : BitVec 1) (count : BitVec 113) (hmin : 2 ≤ len) :
    decodePacket0 .indirectBranch len (packetBitsOf (.ibP0 len bc count)) = some (.ibP0 len bc count) := by
  obtain ⟨hType, hBranch, hCount⟩ := packetBitsOf_ibP0_fields len bc count
  rw [decodePacket0_eq, if_neg (Nat.not_lt.2 hmin), if_neg (by rw [hType]; decide), hBranch, hCount]

theorem decodePacket0_ibsP0 (len : Nat) (dc bc : BitVec 1) (count : BitVec 112) (hmin : 2 ≤ len) :
    decodePacket0 .indirectBranchSync len (packetBitsOf (.ibsP0 len dc bc count)) = some (.ibsP0 len dc bc count) := by
  obtain ⟨hType, hDirect, hBranch, hCount⟩ := packetBitsOf_ibsP0_fields len dc bc count
  rw [decodePacket0_eq, if_neg (Nat.not_lt.2 hmin), if_neg (by rw [hType]; decide), hDirect, hBranch, hCount]

theorem decodePacket0_syncP0 (len : Nat) (dc : BitVec 1) (count : BitVec 113) (hmin : 2 ≤ len) :
    decodePacket0 .sync len (packetBitsOf (.syncP0 len dc count)) = some (.syncP0 len dc count) := by
  obtain ⟨hType, hDirect, hCount⟩ := packetBitsOf_syncP0_fields len dc count
  rw [decodePacket0_eq, if_neg (Nat.not_lt.2 hmin), if_neg (by rw [hType]; decide), hDirect, hCount]

theorem decodePacket0_corrP0 (len : Nat) (count : BitVec 108) (hmin : 2 ≤ len) :
    decodePacket0 .correction len (packetBitsOf (.corrP0 len count)) = some (.corrP0 len count) := by
  obtain ⟨hType, hEvent, hCount⟩ := packetBitsOf_corrP0_fields len count
  rw [decodePacket0_eq, if_neg (Nat.not_lt.2 hmin), if_neg (by rw [hType]; decide), hCount]
  exact if_pos hEvent

/-- A candidate's format refuses a packet of two symbols or more exactly for its type code, or, for the Correction, for
its event code (R77, R80). -/
theorem decodePacket0_eq_none_iff {k : Kind} (hk : k ∈ priority) (len : Nat) (b : PacketBits) (hmin : 2 ≤ len) :
    decodePacket0 k len b = none ↔
      typeCodeOf k ≠ some (b.extractLsb' 0 6) ∨ (k = .correction ∧ b.extractLsb' 6 6 ≠ 0xa#6) := by
  rw [decodePacket0_eq, if_neg (Nat.not_lt.2 hmin)]
  by_cases typed : typeCodeOf k = some (b.extractLsb' 0 6)
  · rw [if_neg (not_not.2 typed)]
    have notOther : ¬ typeCodeOf k ≠ some (b.extractLsb' 0 6) := not_not.2 typed
    rw [or_iff_right notOther]
    cases k with
    | ignoring | undetermined => exact absurd hk (by decide)
    | indirectBranch | indirectBranchSync | sync => simp
    | correction =>
      by_cases event : b.extractLsb' 6 6 = 0xa#6
      · simp [event, eventCodeCORR]
      · simp [event, eventCodeCORR]
  · simp [typed]

/-- The first payload of a packet is its type code (R54, R77). -/
theorem payloadsToBits_type (p : Payload) (ps : List Payload) : (payloadsToBits (p :: ps)).extractLsb' 0 6 = p := by
  apply payload_ext
  intro i hi
  have first : i / 6 = 0 ∧ i % 6 = i := by omega
  rw [BitVec.getLsbD_extractLsb', getLsbD_payloadsToBits, Nat.zero_add, first.1, first.2]
  simp [hi]
  omega

/-- The second payload is the event code of a Correction (R54, R80). -/
theorem payloadsToBits_event (p q : Payload) (ps : List Payload) :
    (payloadsToBits (p :: q :: ps)).extractLsb' 6 6 = q := by
  apply payload_ext
  intro i hi
  have second : (6 + i) / 6 = 1 ∧ (6 + i) % 6 = i := by omega
  rw [BitVec.getLsbD_extractLsb', getLsbD_payloadsToBits, second.1, second.2]
  simp [hi]
  omega

end Sys2Proof.Machine

namespace Sys2Proof.Proofs

open Sys2Proof.Machine

/-- Settles O1: a word and a symbol by their bits; a packet 0 by the format of its kind, which is the only candidate
that takes it; a later packet by its index. -/
theorem decodeOfEncodeIsTheInstruction : Obligations.DecodeOfEncodeIsTheInstruction := by
  intro i k index wf selected
  cases i with
  | word s0 s1 s2 s3 => rw [encode, decode, decodeWord_wordOfSymbols]
  | symData p =>
    rw [encode, decode, decodeSymbol_data (symEop_symbolOf p _) (symEom_symbolOf p _), symPayload_symbolOf]
  | symEop p =>
    rw [encode, decode, decodeSymbol_eop (symEop_symbolOf p _) (symEom_symbolOf p _), symPayload_symbolOf]
  | symEom p =>
    rw [encode, decode, decodeSymbol_eom (symEop_symbolOf p _) (symEom_symbolOf p _), symPayload_symbolOf]
  | symEopm p =>
    rw [encode, decode, decodeSymbol_eopm (symEop_symbolOf p _) (symEom_symbolOf p _), symPayload_symbolOf]
  | ibP0 len bc count =>
    obtain ⟨hmin, hle, _⟩ := (tailFits_iff ..).1 wf
    rw [of_decide_eq_true selected]
    exact decode_packetPayloads_zero _ index wf ⟨hmin, hle⟩ _ (by decide) (decodePacket0_ibP0 len bc count hmin)
  | ibsP0 len dc bc count =>
    obtain ⟨hmin, hle, _⟩ := (tailFits_iff ..).1 wf
    rw [of_decide_eq_true selected]
    exact decode_packetPayloads_zero _ index wf ⟨hmin, hle⟩ _ (by decide) (decodePacket0_ibsP0 len dc bc count hmin)
  | syncP0 len dc count =>
    obtain ⟨hmin, hle, _⟩ := (tailFits_iff ..).1 wf
    rw [of_decide_eq_true selected]
    exact decode_packetPayloads_zero _ index wf ⟨hmin, hle⟩ _ (by decide) (decodePacket0_syncP0 len dc count hmin)
  | corrP0 len count =>
    obtain ⟨hmin, hle, _⟩ := (tailFits_iff ..).1 wf
    rw [of_decide_eq_true selected]
    exact decode_packetPayloads_zero _ index wf ⟨hmin, hle⟩ _ (by decide) (decodePacket0_corrP0 len count hmin)
  | ibP1 len b | ibP2 len b | ibsP1 len b | ibsP2 len b | syncP1 len b | syncP2 len b | corrP1 len b =>
    obtain ⟨hmin, hle, _⟩ := (tailFits_iff ..).1 wf
    obtain ⟨rfl, rfl⟩ := of_decide_eq_true selected
    exact decode_packetPayloads_later _ _ _ wf ⟨hmin, hle⟩ (by decide) (by decide) rfl

/-- Settles O2: a packet that decodes has a format whose answer is a packet instruction of its length and bits, and
those give its payloads back. -/
theorem encodeOfDecodeIsTheCode : Obligations.EncodeOfDecodeIsTheCode := by
  intro k index c i decoded
  cases c with
  | word w =>
    cases decoded
    exact ⟨rfl, congrArg Code.word (wordOfSymbols_parts w)⟩
  | symbol b =>
    cases decoded
    exact encode_decodeSymbol b
  | packet ps =>
    obtain ⟨⟨hpos, hle⟩, format⟩ := decodePacket_cases decoded
    have hb := payloadsToBits_lt ps
    have carried : PacketInstr i ps.length (payloadsToBits ps) := by
      rcases format with ⟨l, first⟩ | later
      · exact packetInstr_of_decodePacket0 hle hb first
      · exact packetInstr_of_decodeLater hpos hle hb later
    exact ⟨carried.wellFormed, carried.encode_eq hle⟩

/-- Settles O5: the candidates all refuse a packet exactly if its first two payloads fit none of them. -/
theorem recognizedPacketZeros : Obligations.RecognizedPacketZeros := by
  constructor
  · intro index p
    rw [decode, decodePacket_undetermined index [p] (by simp) (by simp), decodeCandidates_eq_findSome]
    rfl
  · intro index p q ps hps
    have refused : orReject .noKind (decodeCandidates (p :: q :: ps).length (payloadsToBits (p :: q :: ps)) priority) =
        .reject .noKind ↔
        ∀ k ∈ priority, decodePacket0 k (p :: q :: ps).length (payloadsToBits (p :: q :: ps)) = none := by
      rw [← List.findSome?_eq_none_iff, ← decodeCandidates_eq_findSome]
      cases decodeCandidates (p :: q :: ps).length (payloadsToBits (p :: q :: ps)) priority <;> simp [orReject]
    have byKind (k : Kind) (hk : k ∈ priority) :=
      decodePacket0_eq_none_iff hk (p :: q :: ps).length (payloadsToBits (p :: q :: ps)) (by simp)
    have legal : (p :: q :: ps).length ≤ 20 := by simp only [List.length_cons]; omega
    rw [decode, decodePacket_undetermined index _ (by simp) legal, refused, forall₂_congr byKind,
      payloadsToBits_type, payloadsToBits_event]
    simp [priority, typeCodeOf, typeIB, typeIBS, typeSYNC, typeCORR, eq_comm, ← imp_iff_not_or]

/-- Settles O3: the mask of each row gives the two control bits, and they the class. -/
theorem controlBitsGiveTheClass : Obligations.ControlBitsGiveTheClass := by
  intro b k index
  refine ⟨fun data => ?_, fun eop => ?_, fun eom => ?_, fun eopm => ?_⟩
  · obtain ⟨bit0, bit1⟩ := (and_three_eq_iff b 0b00#2).1 data
    exact congrArg Decoded.instr (decodeSymbol_data bit0 bit1)
  · obtain ⟨bit0, bit1⟩ := (and_three_eq_iff b 0b01#2).1 eop
    exact congrArg Decoded.instr (decodeSymbol_eop bit0 bit1)
  · obtain ⟨bit0, bit1⟩ := (and_three_eq_iff b 0b10#2).1 eom
    exact congrArg Decoded.instr (decodeSymbol_eom bit0 bit1)
  · obtain ⟨bit0, bit1⟩ := (and_three_eq_iff b 0b11#2).1 eopm
    exact congrArg Decoded.instr (decodeSymbol_eopm bit0 bit1)

/-- Settles O4: each word of the spec is decoded by evaluation. -/
theorem wordsOfTheSpecDecode : Obligations.WordsOfTheSpecDecode := by
  unfold Obligations.WordsOfTheSpecDecode
  decide

end Sys2Proof.Proofs
end

section
/-! SUPPORT and PROOF. The tables and the dispatcher: the timestamp tables, the candidate a packet 0 selects, the later
packets, and what of the buffer a dispatch reads (R103, R160 to R168). -/

namespace Sys2Proof.Machine

variable (cfg : Config) (st : StreamState)

/-- The timestamp takes what is left of the packet, at most 64 bits (R103, R108). -/
theorem decodeFields_timestampField (fs : List FieldDesc) (off : Nat) (cand : Option Kind) (sc : Scratch)
    (m : Message) (inPacket : off ≤ st.packetBitCount.toNat) :
    decodeFields cfg st (timestampField :: fs) off cand sc m = ⟨true, cand, sc, { m with
      timestamp := (bitSlice st.packetBits off (min st.packetBitCount.toNat (off + 64))).setWidth 64 }⟩ := by
  rw [decodeFields_terminal cfg st timestampField fs off cand sc m rfl rfl inPacket _ rfl,
    ← setWidth_terminal _ _ _ 64 (by decide)]
  rfl

/-- The four timestamp packets have one table (R168). -/
theorem table_timestamp (k : Kind) (i : Nat)
    (h : ((k = .indirectBranch ∨ k = .indirectBranchSync ∨ k = .sync) ∧ i = 2) ∨ (k = .correction ∧ i = 1)) :
    table k i = [timestampField] := by
  rcases h with ⟨rfl | rfl | rfl, rfl⟩ | ⟨rfl, rfl⟩ <;> rfl

/-- A packet 0 whose table validates has the type code of its kind (R106). -/
theorem typeCodeOf_of_decodeTable_ok {k : Kind} (hk : k ∈ priority)
    (valid : (decodeTable cfg st (table k 0)).ok = true) :
    typeCodeOf k = some (st.packetBits.extractLsb' 0 6) := by
  obtain ⟨fs, hfs⟩ := table_zero_typeField k hk
  by_contra other
  rw [hfs, decodeTable, (decodeFields_typeField cfg st k fs none Scratch.start st.message (.inl other)).1] at valid
  cases valid

/-- A packet 0 whose table validates names the kind of the table (R104). -/
theorem cand_of_decodeTable_ok {k : Kind} (hk : k ∈ priority) (valid : (decodeTable cfg st (table k 0)).ok = true) :
    (decodeTable cfg st (table k 0)).cand = some k := by
  simp only [priority, List.mem_cons, List.not_mem_nil, or_false] at hk
  rcases hk with rfl | rfl | rfl | rfl
  · obtain ⟨_, okIff, result⟩ := Proofs.ibP0TableDecodes cfg st
    obtain ⟨typed, fits⟩ := okIff.1 valid
    exact (result typed fits).1
  · obtain ⟨_, _, okIff, result⟩ := Proofs.ibsP0TableDecodes cfg st
    obtain ⟨typed, fits⟩ := okIff.1 valid
    exact (result typed fits).1
  · obtain ⟨_, okIff, result⟩ := Proofs.syncP0TableDecodes cfg st
    obtain ⟨typed, fits⟩ := okIff.1 valid
    exact (result typed fits).1
  · obtain ⟨_, _, okIff, result⟩ := Proofs.corrP0TableDecodes cfg st
    obtain ⟨typed, fits, event⟩ := okIff.1 valid
    exact (result typed fits event).1

/-- The trials come to the candidate that validates with the message as it was before the first (R166). -/
theorem tryCandidates_of_ok {k : Kind} (ks : List Kind) (candidates : ∀ l ∈ ks, l ∈ priority) (listed : k ∈ ks)
    (valid : (decodeTable cfg st (table k 0)).ok = true) :
    tryCandidates cfg ks st =
      ⟨({ st with message := (decodeTable cfg st (table k 0)).message } : StreamState).setKindIndex k 1#8, none⟩ := by
  have typed := typeCodeOf_of_decodeTable_ok cfg st (candidates k listed) valid
  induction ks with
  | nil => cases listed
  | cons l ls ih =>
    by_cases same : l = k
    · subst same
      simp only [tryCandidates, valid, if_true, cand_of_decodeTable_ok cfg st (candidates l listed) valid,
        Option.getD_some]
    · have hl := candidates l List.mem_cons_self
      have other : typeCodeOf l ≠ some (st.packetBits.extractLsb' 0 6) := fun h =>
        same (typeCodeOf_injective l hl k (candidates k listed) (h.trans typed.symm))
      rw [tryCandidates_skip cfg st l ls hl other]
      exact ih (fun m hm => candidates m (List.mem_cons_of_mem l hm)) (List.mem_of_ne_of_mem (Ne.symm same) listed)

/-- A packet that is still expected after packet 0 is an address or a timestamp (R168). -/
theorem laterPacket_cases {k : Kind} {i : Nat} (started : 1 ≤ i) (expected : i < maxPackets k) :
    ((k = .indirectBranch ∨ k = .indirectBranchSync ∨ k = .sync) ∧ i = 1) ∨
    ((k = .indirectBranch ∨ k = .indirectBranchSync ∨ k = .sync) ∧ i = 2) ∨ (k = .correction ∧ i = 1) := by
  have threePackets (h : i < 3) : i = 1 ∨ i = 2 := by omega
  cases k with
  | ignoring | undetermined => exact absurd expected (Nat.not_lt_zero i)
  | indirectBranch | indirectBranchSync | sync => simpa using threePackets expected
  | correction => simpa using Nat.le_antisymm (Nat.le_of_lt_succ expected) started

/-- The table decoder reads of the buffer only what is below the count (R23, R100). -/
theorem decodeTable_packetBits (bits : PacketBits)
    (same : ∀ i, i < st.packetBitCount.toNat → bits.getLsbD i = st.packetBits.getLsbD i) (t : List FieldDesc) :
    decodeTable cfg { st with packetBits := bits } t = decodeTable cfg st t :=
  decodeFields_congr cfg st { st with packetBits := bits } rfl same t 0 none Scratch.start st.message

/-- The trials read no more, and hand the buffer on (R23). -/
theorem tryCandidates_packetBits (bits : PacketBits)
    (same : ∀ i, i < st.packetBitCount.toNat → bits.getLsbD i = st.packetBits.getLsbD i) (ks : List Kind) :
    tryCandidates cfg ks { st with packetBits := bits } =
      ⟨{ (tryCandidates cfg ks st).st with packetBits := bits }, (tryCandidates cfg ks st).failure⟩ := by
  induction ks generalizing st with
  | nil => rfl
  | cons k ks ih =>
    simp only [tryCandidates, decodeTable_packetBits cfg st bits same]
    split
    · rfl
    · exact ih { st with message := (decodeTable cfg st (table k 0)).message } same

theorem dispatchLater_packetBits (bits : PacketBits)
    (same : ∀ i, i < st.packetBitCount.toNat → bits.getLsbD i = st.packetBits.getLsbD i) :
    dispatchLater cfg { st with packetBits := bits } =
      ⟨{ (dispatchLater cfg st).st with packetBits := bits }, (dispatchLater cfg st).failure⟩ := by
  simp only [dispatchLater, decodeTable_packetBits cfg st bits same]
  split
  · split <;> rfl
  · rfl

theorem dispatch_packetBits (bits : PacketBits)
    (same : ∀ i, i < st.packetBitCount.toNat → bits.getLsbD i = st.packetBits.getLsbD i) :
    dispatch cfg { st with packetBits := bits } =
      ⟨{ (dispatch cfg st).st with packetBits := bits }, (dispatch cfg st).failure⟩ := by
  by_cases first : st.message.kind = .undetermined
  · rw [dispatch_undetermined cfg st first, dispatch_undetermined cfg { st with packetBits := bits } first]
    exact tryCandidates_packetBits cfg st.zeroMessage bits same priority
  · rw [dispatch_determined cfg st first, dispatch_determined cfg { st with packetBits := bits } first]
    exact dispatchLater_packetBits cfg st bits same

/-- A dispatch leaves the buffer and the count to its caller (R160). -/
theorem dispatch_buffer : (dispatch cfg st).st.packetBits = st.packetBits ∧
    (dispatch cfg st).st.packetBitCount = st.packetBitCount := by
  by_cases first : st.message.kind = .undetermined
  · rw [dispatch_undetermined cfg st first]
    rcases tryCandidates_cases cfg priority st.zeroMessage with ⟨_, _, _, _, _, e⟩ | ⟨_, _, e⟩ <;> rw [e] <;>
      exact ⟨rfl, rfl⟩
  · rw [dispatch_determined cfg st first]
    rcases dispatchLater_cases cfg st with ⟨_, _, e⟩ | ⟨_, _, e⟩ | ⟨_, e⟩ <;> rw [e] <;> exact ⟨rfl, rfl⟩

/-- No candidate validates: the trials leave kind, index and buffer as they were (R162). -/
theorem dispatch_noCandidate (first : st.message.kind = .undetermined)
    (refused : ∀ k ∈ priority, (decodeTable cfg st (table k 0)).ok = false) :
    ∃ m : Message, m.kind = .undetermined ∧ dispatch cfg st = ⟨{ st with message := m }, some .noKind⟩ := by
  rw [dispatch_undetermined cfg st first]
  rcases tryCandidates_cases cfg priority st.zeroMessage with ⟨k, hk, m, _, valid, _⟩ | ⟨m, kind, e⟩
  · have invalid : (decodeTable cfg { st with message := m } (table k 0)).ok = false :=
      (decodeTable_ok_message cfg st m _).trans (refused k hk)
    exact absurd (valid.symm.trans invalid) (by decide)
  · exact ⟨m, kind.trans first, e⟩

end Sys2Proof.Machine

namespace Sys2Proof.Proofs

open Sys2Proof.Machine

/-- Settles O34: the timestamp is the only field of its table and starts at bit 0, so no packet is too short for it. -/
theorem timestampTablesDecode : Obligations.TimestampTablesDecode := by
  intro cfg st k i h
  rw [table_timestamp k i h, decodeTable, decodeFields_timestampField cfg st _ _ _ _ _ (Nat.zero_le _)]
  exact ⟨rfl, rfl⟩

/-- Settles O35: two tables that validate ask for the type code of the one packet. -/
theorem atMostOneCandidateValidates : Obligations.AtMostOneCandidateValidates := by
  intro cfg st k l hk hl validK validL
  exact typeCodeOf_injective k hk l hl
    ((typeCodeOf_of_decodeTable_ok cfg st hk validK).trans (typeCodeOf_of_decodeTable_ok cfg st hl validL).symm)

/-- Settles O36: in `Undetermined` the trials start from the zeroed message and come to `k` with it unchanged. -/
theorem typeDeterminationStartsAFreshMessage : Obligations.TypeDeterminationStartsAFreshMessage := by
  intro cfg st k first hk valid
  rw [dispatch_undetermined cfg st first,
    tryCandidates_of_ok cfg st.zeroMessage priority (fun _ h => h) hk valid]
  rfl

/-- Settles O37. -/
theorem noCandidateLeavesTheKind : Obligations.NoCandidateLeavesTheKind := by
  intro cfg st first refused
  obtain ⟨m, kind, e⟩ := dispatch_noCandidate cfg st first refused
  rw [e]
  exact ⟨rfl, kind, rfl⟩

/-- Settles O38: the tables of the packets after packet 0 hold one terminal field, which validates. -/
theorem laterPacketsNeverFail : Obligations.LaterPacketsNeverFail := by
  intro cfg st started expected
  have determined : st.message.kind ≠ .undetermined := fun h => by
    rw [h] at expected
    exact absurd expected (Nat.not_lt_zero _)
  have valid : (decodeTable cfg st (table st.message.kind st.messagePacketIndex.toNat)).ok = true := by
    rcases laterPacket_cases started expected with ⟨hk, index⟩ | timestamp
    · rw [index]
      exact (addressTablesDecode cfg st _ hk).1
    · exact (timestampTablesDecode cfg st _ _ timestamp).1
  rw [dispatch_determined cfg st determined]
  rcases dispatchLater_cases cfg st with ⟨_, _, e⟩ | ⟨_, invalid, _⟩ | ⟨excess, _⟩
  · exact e
  · exact absurd (valid.symm.trans invalid) (by decide)
  · exact absurd expected (Nat.not_lt.2 excess)

/-- Settles O39: of the cases of a later packet only the last has no table left. -/
theorem excessPacketDropsTheMessage : Obligations.ExcessPacketDropsTheMessage := by
  intro cfg st determined excess
  rw [dispatch_determined cfg st determined]
  rcases dispatchLater_cases cfg st with ⟨expected, _, _⟩ | ⟨expected, _, _⟩ | ⟨_, e⟩
  · exact absurd expected (Nat.not_lt.2 excess)
  · exact absurd expected (Nat.not_lt.2 excess)
  · rw [e]
    rfl

/-- Settles O40: the answer on another buffer is that on the first one, with the other buffer handed on. -/
theorem dispatchReadsOnlyBelowTheCount : Obligations.DispatchReadsOnlyBelowTheCount := by
  intro cfg st bits same
  rw [dispatch_packetBits cfg st bits same]
  exact ⟨rfl, rfl, dispatch_buffer cfg st⟩

/-- Settles O25: three fields that fit in the 12 bits are read, and the fourth does not fit. -/
theorem extractBoundaryExample : Obligations.ExtractBoundaryExample := by
  rintro m i st rfl
  have fits (w : Nat) (h : 2 + w ≤ 12) :
      extract ⟨0x3FC#120, 12#8, m, i⟩ 2 w = some (((0x3FC#120).extractLsb' 2 w).setWidth 64) :=
    extract_some _ 2 w h
  have tooLong : (12#8).toNat < 2 + 11 := by decide
  exact ⟨(fits 6 (by decide)).trans (by decide), (fits 7 (by decide)).trans (by decide),
    (fits 8 (by decide)).trans (by decide), extract_none _ 2 11 tooLong⟩

/-- Settles O26. -/
theorem terminalFieldTakesTheRest : Obligations.TerminalFieldTakesTheRest := by
  intro cfg st dstBytes slot fs off cand sc m inPacket
  exact decodeFields_terminal cfg st ⟨0, dstBytes, slot, none⟩ fs off cand sc m rfl rfl inPacket _ rfl

/-- Settles O28: the registry is finite, and each kind's tables are checked by evaluation. -/
theorem tablesEndInTheirTerminalField : Obligations.TablesEndInTheirTerminalField := by
  intro k
  cases k with
  | ignoring | undetermined => exact fun i none => absurd none (Nat.not_lt_zero i)
  | indirectBranch | indirectBranchSync | sync | correction => decide

end Sys2Proof.Proofs
end

section
/-! SUPPORT and PROOF. A symbol in every state, by what it meets: an aborted session, a resynchronization, a full
buffer, or a packet to append to (R131 to R138); then words, steps and whole instructions. -/

namespace Sys2Proof.Machine

/-- The mask that R138 tests asks for both control bits (R72). -/
theorem and_three_eq_three_iff (b : Symbol) : b &&& 0x03#8 = 0x03#8 ↔ symEop b = true ∧ symEom b = true :=
  and_three_eq_iff b 0b11#2

/-- In `Ignoring` a symbol without EOP+EOM is dropped, in an aborted session every one (R31, R138). -/
theorem runSymbol_dropped (b : Symbol) (s : State)
    (h : s.aborted = true ∨ s.st.message.kind = .ignoring ∧ ¬ (symEop b = true ∧ symEom b = true)) :
    runSymbol b s = s := by
  rcases h with aborted | ⟨ignoring, noMarker⟩
  · exact runSymbol_aborted b s aborted
  · cases aborted : s.aborted
    · rw [runSymbol_running b s aborted, symbolStep_ignoring b s ignoring]
      exact if_neg fun marker => noMarker (Bool.and_eq_true_iff.1 marker)
    · exact runSymbol_aborted b s aborted

/-- In `Ignoring` an EOP+EOM symbol resynchronizes the block (R138). -/
theorem runSymbol_resync (b : Symbol) (s : State) (running : s.aborted = false)
    (ignoring : s.st.message.kind = .ignoring) (eop : symEop b = true) (eom : symEom b = true) :
    runSymbol b s = resync s := by
  rw [runSymbol_running b s running, symbolStep_ignoring b s ignoring, eop, eom]
  rfl

/-- A symbol that does not fit abandons its packet (R136). -/
theorem runSymbol_overflow (b : Symbol) (s : State) (running : s.aborted = false)
    (active : s.st.message.kind ≠ .ignoring) (full : 120 < s.st.packetBitCount.toNat + 6) :
    runSymbol b s = { s with
      st := { packetBits := 0#120, packetBitCount := 0#8, messagePacketIndex := 0#8,
              message := { s.st.message with kind := .ignoring } }
      diag := s.diag ++ [.overflow] } := by
  rw [runSymbol_running b s running, symbolStep_full b s active ((full_eq_true_iff s.st).2 full)]
  rfl

/-- A symbol that fits is appended, and with EOP ends its packet (R131). -/
theorem runSymbol_room (b : Symbol) (s : State) (running : s.aborted = false)
    (active : s.st.message.kind ≠ .ignoring) (room : ¬ 120 < s.st.packetBitCount.toNat + 6) :
    runSymbol b s =
      if symEop b then endPacket (symEom b) { s with st := s.st.append (symPayload b) }
      else { s with st := s.st.append (symPayload b) } := by
  rw [runSymbol_running b s running]
  exact symbolStep_append b s active (decide_eq_false room)

/-- A symbol without EOP in every state (R132, R134). -/
theorem runSymbol_data (b : Symbol) (s : State) (eop : symEop b = false) :
    runSymbol b s =
      if s.aborted = true ∨ s.st.message.kind = .ignoring then s
      else if 120 < s.st.packetBitCount.toNat + 6 then
        { s with
          st := { packetBits := 0#120, packetBitCount := 0#8, messagePacketIndex := 0#8,
                  message := { s.st.message with kind := .ignoring } }
          diag := s.diag ++ [.overflow] }
      else { s with st := s.st.append (symPayload b) } := by
  split
  next h =>
    exact runSymbol_dropped b s (h.imp_right fun ignoring => ⟨ignoring, by simp [eop]⟩)
  next h =>
    rw [not_or, Bool.not_eq_true] at h
    obtain ⟨running, active⟩ := h
    split
    next full => exact runSymbol_overflow b s running active full
    next room =>
      rw [runSymbol_room b s running active room, eop]
      rfl

/-- Symbols without EOP+EOM leave a block that resynchronizes as it is (R138). -/
theorem runSymbols_dropped (bs : List Symbol) (s : State) (ignoring : s.st.message.kind = .ignoring)
    (noMarker : ∀ b ∈ bs, ¬ (symEop b = true ∧ symEom b = true)) : runSymbols bs s = s := by
  induction bs with
  | nil => rfl
  | cons b bs ih =>
    rw [runSymbols_cons, runSymbol_dropped b s (.inr ⟨ignoring, noMarker b List.mem_cons_self⟩)]
    exact ih fun c hc => noMarker c (List.mem_cons_of_mem b hc)

/-- An aborted session processes no run of symbols (R31). -/
theorem runSymbols_aborted (bs : List Symbol) (s : State) (aborted : s.aborted = true) : runSymbols bs s = s := by
  induction bs with
  | nil => rfl
  | cons b bs ih => rw [runSymbols_cons, runSymbol_aborted b s aborted, ih]

/-- No symbol of a packet unit ends a message (R73, log 18). -/
theorem symEom_of_mem_packetSymbols (ps : List Payload) : ∀ b ∈ packetSymbols 0b01#ctrlBits ps, symEom b = false := by
  induction ps using packetSymbols.induct with
  | case1 => simp [packetSymbols]
  | case2 p => simp [packetSymbols]
  | case3 p q ps ih =>
    rw [packetSymbols]
    exact List.forall_mem_cons.2 ⟨by simp, ih⟩

/-- An aborted session refuses a word (R130, R236). -/
theorem acceptWord_aborted (w : Word) (s : State) (aborted : s.aborted = true) :
    acceptWord w s = { s with wordStatus := .refused } := by
  rw [acceptWord, if_pos aborted]

/-- A packet of fewer than seven bits fits no candidate (R186). -/
theorem seven_le_of_decodeTable_ok (cfg : Config) (st : StreamState) {k : Kind} (hk : k ∈ priority)
    (valid : (decodeTable cfg st (table k 0)).ok = true) : 7 ≤ st.packetBitCount.toNat := by
  simp only [priority, List.mem_cons, List.not_mem_nil, or_false] at hk
  rcases hk with rfl | rfl | rfl | rfl
  · obtain ⟨_, okIff, _⟩ := Proofs.ibP0TableDecodes cfg st
    exact (okIff.1 valid).2
  · obtain ⟨_, _, okIff, _⟩ := Proofs.ibsP0TableDecodes cfg st
    exact Nat.le_of_succ_le (okIff.1 valid).2
  · obtain ⟨_, okIff, _⟩ := Proofs.syncP0TableDecodes cfg st
    exact (okIff.1 valid).2
  · obtain ⟨_, _, okIff, _⟩ := Proofs.corrP0TableDecodes cfg st
    exact le_trans (by decide) (okIff.1 valid).2.1

/-- A one-symbol packet determines no type (R186). -/
theorem dispatch_oneSymbol (cfg : Config) (st : StreamState) (p : Payload) (first : st.message.kind = .undetermined)
    (empty : st.packetBitCount = 0#8) : (dispatch cfg (st.append p)).failure = some .noKind := by
  have six : (st.append p).packetBitCount.toNat = 6 := by rw [append_count, empty]; rfl
  have refused : ∀ k ∈ priority, (decodeTable cfg (st.append p) (table k 0)).ok = false := by
    intro k hk
    by_contra valid
    have := seven_le_of_decodeTable_ok cfg (st.append p) hk (by simpa using valid)
    omega
  obtain ⟨m, _, e⟩ := dispatch_noCandidate cfg (st.append p) first refused
  rw [e]

/-- The three ways of a step (logs 1, 2 and 21). -/
theorem step_idle {s : State} (idle : s.wordIn = []) : step s = .next s := by
  simp only [step, idle]

theorem step_instr {s : State} {c : Code} {rest : List Code} {i : Instr} (offered : s.wordIn = c :: rest)
    (decoded : decode s.st.message.kind s.st.messagePacketIndex c = .instr i) :
    step s = exec i { s with wordIn := rest } := by
  simp only [step, offered, decoded]

theorem step_reject {s : State} {c : Code} {rest : List Code} {r : Reject} (offered : s.wordIn = c :: rest)
    (rejected : decode s.st.message.kind s.st.messagePacketIndex c = .reject r) :
    step s = .next (runCode c { s with wordIn := rest }) := by
  simp only [step, offered, rejected]

end Sys2Proof.Machine

namespace Sys2Proof.Proofs

open Sys2Proof.Machine

/-- Settles O6. -/
theorem stepRunsTheDecodedInstruction : Obligations.StepRunsTheDecodedInstruction :=
  fun _ _ _ _ offered decoded => step_instr offered decoded

/-- Settles O7: a rejected packet runs as its code, which is its run of symbols. -/
theorem stepWithoutAnInstruction : Obligations.StepWithoutAnInstruction :=
  ⟨fun _ idle => step_idle idle, fun _ _ _ _ offered rejected => step_reject offered rejected⟩

/-- Settles O8: an idle step, an instruction and a rejected packet all answer with a next state. -/
theorem everyStepHasANextState : Obligations.EveryStepHasANextState := by
  intro s
  cases offered : s.wordIn with
  | nil => exact ⟨s, step_idle offered⟩
  | cons c rest =>
    cases decoded : decode s.st.message.kind s.st.messagePacketIndex c with
    | instr i =>
      obtain ⟨d, e⟩ := exec_eq_runCode i { s with wordIn := rest }
      exact ⟨_, (step_instr offered decoded).trans e⟩
    | reject r => exact ⟨_, step_reject offered decoded⟩

/-- Settles O44: each arm of `exec` is the run of its row's code. -/
theorem execRunsTheCodeOnTheWire : Obligations.ExecRunsTheCodeOnTheWire := by
  intro i s
  cases i with
  | word | symData | symEop | symEom | symEopm => rfl
  | ibP0 | ibP1 | ibP2 | ibsP0 | ibsP1 | ibsP2 | syncP0 | syncP1 | syncP2 | corrP0 | corrP1 => rfl

/-- Settles O10: the symbols of the word are the four it was made of. -/
theorem wordRunsItsFourSymbols : Obligations.WordRunsItsFourSymbols := by
  intro s0 s1 s2 s3 s
  rw [execRunsTheCodeOnTheWire (.word s0 s1 s2 s3) s, encode, runCode]
  constructor
  · intro running
    rw [acceptWord_running _ s running, wordSymbols_wordOfSymbols]
    rfl
  · intro aborted
    rw [acceptWord_aborted _ s aborted]

/-- Settles O53: a word is refused, and an aborted session runs no symbol of any other code. -/
theorem abortedSessionTakesNothing : Obligations.AbortedSessionTakesNothing := by
  intro i s aborted
  rw [execRunsTheCodeOnTheWire i s]
  cases i with
  | word s0 s1 s2 s3 => exact congrArg Host.Outcome.next (acceptWord_aborted _ s aborted)
  | symData | symEop | symEom | symEopm => exact congrArg Host.Outcome.next (runSymbol_aborted _ s aborted)
  | ibP0 | ibP1 | ibP2 | ibsP0 | ibsP1 | ibsP2 | syncP0 | syncP1 | syncP2 | corrP0 | corrP1 =>
    exact congrArg Host.Outcome.next (runSymbols_aborted _ s aborted)

/-- Settles O45: no symbol of a packet unit has EOM, so none resynchronizes the block. -/
theorem packetRowsDroppedWhileIgnoring : Obligations.PacketRowsDroppedWhileIgnoring := by
  intro i ps s isPacket ignoring
  rw [execRunsTheCodeOnTheWire i s, isPacket]
  refine congrArg Host.Outcome.next (runSymbols_dropped (packetSymbols 0b01#ctrlBits ps) s ignoring ?_)
  intro b hb
  simp [symEom_of_mem_packetSymbols ps b hb]

/-- Settles O13: neither class has EOP. -/
theorem dataSymbolAppendsOrOverflows : Obligations.DataSymbolAppendsOrOverflows := by
  intro p s t
  have without (c : Control) (eop : c.getLsbD 0 = false) : runSymbol (symbolOf p c) s = t := by
    rw [runSymbol_data (symbolOf p c) s ((symEop_symbolOf p c).trans eop), symPayload_symbolOf]
    rfl
  exact ⟨congrArg Host.Outcome.next (without 0b00#2 rfl), congrArg Host.Outcome.next (without 0b10#2 rfl)⟩

/-- Settles O14: both classes do what O13 states. -/
theorem eomAloneIsData : Obligations.EomAloneIsData := by
  intro p s
  obtain ⟨data, eom⟩ := dataSymbolAppendsOrOverflows p s
  exact eom.trans data.symm

/-- Settles O15: the branches of R131 in order; a packet that fits is ended by what its dispatch answers. -/
theorem eopSymbolEndsThePacket : Obligations.EopSymbolEndsThePacket := by
  intro p s
  refine congrArg Host.Outcome.next ?_
  have eop : symEop (symbolOf p 0b01#2) = true := symEop_symbolOf p _
  have eom : symEom (symbolOf p 0b01#2) = false := symEom_symbolOf p _
  split
  next h =>
    exact runSymbol_dropped _ s (h.imp_right fun ignoring => ⟨ignoring, by simp [eom]⟩)
  next h =>
    rw [not_or, Bool.not_eq_true] at h
    obtain ⟨running, active⟩ := h
    split
    next full => exact runSymbol_overflow _ s running active full
    next room =>
      rw [runSymbol_room _ s running active room, if_pos eop, eom, symPayload_symbolOf]
      split
      next st ok => exact endPacket_ok { s with st := s.st.append p } st ok
      next st r failed => exact endPacket_fail false { s with st := s.st.append p } st r failed

/-- Settles O16: the branches of R131 in order, with the resynchronization before the overflow. -/
theorem eopmSymbolEndsTheMessage : Obligations.EopmSymbolEndsTheMessage := by
  intro p s
  refine congrArg Host.Outcome.next ?_
  have eop : symEop (symbolOf p 0b11#2) = true := symEop_symbolOf p _
  have eom : symEom (symbolOf p 0b11#2) = true := symEom_symbolOf p _
  split
  next aborted => exact runSymbol_aborted _ s aborted
  next running =>
    rw [Bool.not_eq_true] at running
    split
    next ignoring => exact runSymbol_resync _ s running ignoring eop eom
    next active =>
      split
      next full => exact runSymbol_overflow _ s running active full
      next room =>
        rw [runSymbol_room _ s running active room, if_pos eop, eom, symPayload_symbolOf]
        split
        next st r failed => exact endPacket_fail true { s with st := s.st.append p } st r failed
        next st ok => exact endPacket_message { s with st := s.st.append p } st ok

/-- Settles O18: 120 bits leave no room for six more. -/
theorem overflowAbandonsThePacket : Obligations.OverflowAbandonsThePacket := by
  intro b s running active count
  exact runSymbol_overflow b s running active (by rw [count]; decide)

/-- Settles O19: the run before the marker is dropped, so the marker meets the block as it was. -/
theorem resyncSkipsToTheFirstMarker : Obligations.ResyncSkipsToTheFirstMarker := by
  intro bs r s running ignoring noMarker marker
  have dropped : runSymbols bs s = s :=
    runSymbols_dropped bs s ignoring fun b hb => (and_three_eq_three_iff b).not.1 (noMarker b hb)
  obtain ⟨eop, eom⟩ := (and_three_eq_three_iff r).1 marker
  refine ⟨dropped, ?_⟩
  rw [runSymbols_append, dropped, runSymbols_cons, runSymbols_nil, runSymbol_resync r s running ignoring eop eom]
  rfl

/-- Settles O20: each way a packet ends resets the buffer. -/
theorem bufferEmptyAfterEveryPacket : Obligations.BufferEmptyAfterEveryPacket := by
  intro b s running active room eop
  rcases runSymbol_active_cases b s running active room with
    ⟨noEop, _⟩ | ⟨_, _, _, _, e⟩ | ⟨_, _, _, _, e⟩ | ⟨_, _, _, _, e⟩
  · exact absurd (eop.symm.trans noEop) (by decide)
  · rw [e]; exact ⟨rfl, rfl⟩
  · rw [e]; exact ⟨rfl, rfl⟩
  · rw [e]; exact ⟨rfl, rfl⟩

/-- Settles O21: a resync, the end of a message and a failure with EOM all set the three fields. -/
theorem messageEndStartsOver : Obligations.MessageEndStartsOver := by
  intro b s running marker room
  obtain ⟨eop, eom⟩ := (and_three_eq_three_iff b).1 marker
  by_cases ignoring : s.st.message.kind = .ignoring
  · rw [runSymbol_resync b s running ignoring eop eom]
    exact ⟨rfl, rfl, rfl⟩
  · rcases runSymbol_active_cases b s running ignoring (room ignoring) with
      ⟨noEop, _⟩ | ⟨_, noEom, _⟩ | ⟨_, _, _, _, e⟩ | ⟨_, _, _, _, e⟩
    · exact absurd (eop.symm.trans noEop) (by decide)
    · exact absurd (eom.symm.trans noEom) (by decide)
    · rw [e]; exact ⟨rfl, rfl, rfl⟩
    · rw [e, eom]; exact ⟨rfl, rfl, rfl⟩

/-- Settles O22: only the end of a message runs the tracker, which emits one event at most. -/
theorem onlyMessageEndsEmit : Obligations.OnlyMessageEndsEmit := by
  intro b s
  have silent (e : (runSymbol b s).eventOut = s.eventOut) : ∃ evs : List Event,
      (runSymbol b s).eventOut = s.eventOut ++ evs ∧ evs.length ≤ 1 ∧
      (evs ≠ [] → b &&& 0x03#8 = 0x03#8 ∧ s.aborted = false ∧ s.st.message.kind ≠ .ignoring ∧
        (dispatch s.cfg (s.st.append (b.extractLsb' 2 6))).failure = none) :=
    ⟨[], by rw [e, List.append_nil], by decide, fun h => absurd rfl h⟩
  rcases runSymbol_cases b s with e | ⟨_, _, _, _, e⟩ | ⟨_, _, _, e⟩ | ⟨running, active, room⟩
  · exact silent (by rw [e])
  · exact silent (by rw [e, resync_eventOut])
  · exact silent (by rw [e, recover_eventOut])
  rcases runSymbol_active_cases b s running active room with
    ⟨_, e⟩ | ⟨_, _, _, _, e⟩ | ⟨eop, eom, st, ok, e⟩ | ⟨_, _, _, _, e⟩
  · exact silent (by rw [e])
  · exact silent (by rw [e])
  · refine ⟨(interpMessage st.message s.ctx).events, by rw [e], length_interpMessage_events _ _, fun _ => ?_⟩
    exact ⟨(and_three_eq_three_iff b).2 ⟨eop, eom⟩, running, active, congrArg Dispatched.failure ok⟩
  · exact silent (by rw [e])

/-- Settles O23: of the ways of a symbol only the overflow and the failed dispatch report, and an excess packet writes
no data field. -/
theorem recoverableErrorFrame : Obligations.RecoverableErrorFrame := by
  intro b s reported
  rcases runSymbol_cases b s with e | ⟨_, _, _, _, e⟩ | ⟨_, _, noRoom, e⟩ | ⟨running, active, room⟩
  · exact absurd (by rw [e]) reported
  · exact absurd (by rw [e, resync_diag]) reported
  · exact ⟨.overflow, s.st.message, e, by decide, by simp; omega, fun _ => rfl, by simp, fun h => absurd rfl h⟩
  rcases runSymbol_active_cases b s running active room with
    ⟨_, e⟩ | ⟨_, _, _, _, e⟩ | ⟨_, _, _, _, e⟩ | ⟨_, st, r, failed, e⟩
  · exact absurd (by rw [e]) reported
  · exact absurd (by rw [e]) reported
  · exact absurd (by rw [e]) reported
  have failure : (dispatch s.cfg (s.st.append (b.extractLsb' 2 6))).failure = some r :=
    congrArg Dispatched.failure failed
  have message : st.message = (dispatch s.cfg (s.st.append (b.extractLsb' 2 6))).st.message :=
    congrArg (·.st.message) failed.symm
  have noOverflow : ¬ 120 < s.st.packetBitCount.toNat + 6 := by omega
  rcases dispatch_reason s.cfg _ r failure with rfl | rfl | rfl
  · exact ⟨.noKind, st.message, e, by decide, by simpa using room, by simp, fun _ => message, fun _ => failure⟩
  · exact ⟨.packetMismatch, st.message, e, by decide, by simpa using room, by simp, fun _ => message, fun _ => failure⟩
  · have kept : st = (s.st.append (b.extractLsb' 2 6)).setKindIndex .undetermined 0#8 :=
      congrArg Dispatched.st (failed.symm.trans (dispatch_excessPacket s.cfg _ failure))
    rw [kept] at e
    exact ⟨.excessPacket, s.st.message, e, by decide, by simpa using room, fun _ => rfl, by simp, fun _ => failure⟩

end Sys2Proof.Proofs

namespace Sys2Proof.Machine

/-- Two symbols in a row add at most one event: after a message end the block holds no bits, and one symbol more is no
packet 0 (R61, R186). -/
theorem runSymbol_runSymbol_events (b c : Symbol) (s : State) : ∃ evs : List Event,
    (runSymbol c (runSymbol b s)).eventOut = s.eventOut ++ evs ∧ evs.length ≤ 1 := by
  obtain ⟨evs, added, one, emits⟩ := Proofs.onlyMessageEndsEmit b s
  obtain ⟨more, addedMore, oneMore, emitsMore⟩ := Proofs.onlyMessageEndsEmit c (runSymbol b s)
  by_cases silent : evs = []
  · exact ⟨more, by rw [addedMore, added, silent, List.append_nil], oneMore⟩
  have noMore : more = [] := by
    by_contra emitted
    obtain ⟨marker, running, active, ok⟩ := emits silent
    obtain ⟨_, _, _, okMore⟩ := emitsMore emitted
    have room : s.st.packetBitCount.toNat + 6 ≤ 120 := by
      by_contra full
      have kept := runSymbol_overflow b s running active (Nat.lt_of_not_le full)
      exact silent (List.self_eq_append_right.1 (added.symm.trans (by rw [kept])).symm)
    obtain ⟨first, _, empty⟩ := Proofs.messageEndStartsOver b s running marker fun _ => room
    rw [dispatch_oneSymbol _ _ _ first empty] at okMore
    cases okMore
  exact ⟨evs, by rw [addedMore, added, noMore, List.append_nil], one⟩

end Sys2Proof.Machine

namespace Sys2Proof.Proofs

open Sys2Proof.Machine

/-- Settles O12: the four symbols of a word are two pairs. -/
theorem atMostTwoEventsPerWord : Obligations.AtMostTwoEventsPerWord := by
  intro s0 s1 s2 s3 s
  obtain ⟨whenRunning, whenAborted⟩ := wordRunsItsFourSymbols s0 s1 s2 s3 s
  cases aborted : s.aborted
  · obtain ⟨evs, added, one⟩ := runSymbol_runSymbol_events s0 s1 s
    obtain ⟨more, addedMore, oneMore⟩ := runSymbol_runSymbol_events s2 s3 (runSymbol s1 (runSymbol s0 s))
    refine ⟨_, evs ++ more, whenRunning aborted, ?_, ?_⟩
    · rw [addedMore, added, List.append_assoc]
    · rw [List.length_append]
      omega
  · exact ⟨_, [], whenAborted aborted, (List.append_nil _).symm, by decide⟩

end Sys2Proof.Proofs
end

section
/-! SUPPORT and PROOF. The tracker over symbols and steps: what is stored, when `valid` holds, and that
`direct_continue` is read by nothing (R200 to R211). -/

namespace Sys2Proof.Machine

/-- R202: the XOR base is the old address, `valid` is kept and gates the event. -/
theorem interpMessage_indirectBranch (m : Message) (old : TrackingContext) (h : m.kind = .indirectBranch) :
    interpMessage m old = ⟨⟨old.address ^^^ m.address, old.valid⟩,
      if old.valid = true then
        [.branch (liveAdvance old m) (old.address ^^^ m.address) m.branchKind m.timestamp] else []⟩ := by
  rw [interpMessage, h]; rfl

/-- A control state has no message to interpret (log 28). -/
theorem interpMessage_control (m : Message) (old : TrackingContext) (h : m.kind = .ignoring ∨ m.kind = .undetermined) :
    interpMessage m old = ⟨old, []⟩ := by
  rcases h with h | h <;> rw [interpMessage, h]

/-- What an interpretation stores (R211). -/
theorem interpMessage_address (m : Message) (old : TrackingContext) :
    (interpMessage m old).ctx.address = old.address ∨
    (m.kind = .indirectBranch ∧ (interpMessage m old).ctx.address = old.address ^^^ m.address) ∨
    ((m.kind = .indirectBranchSync ∨ m.kind = .sync) ∧ (interpMessage m old).ctx.address = m.address) := by
  cases kind : m.kind with
  | ignoring => exact .inl (by rw [interpMessage_control m old (.inl kind)])
  | undetermined => exact .inl (by rw [interpMessage_control m old (.inr kind)])
  | indirectBranch => exact .inr (.inl ⟨rfl, by rw [interpMessage_indirectBranch m old kind]⟩)
  | indirectBranchSync => exact .inr (.inr ⟨.inl rfl, by rw [interpMessage_indirectBranchSync m old kind]⟩)
  | sync => exact .inr (.inr ⟨.inr rfl, by rw [interpMessage_sync m old kind]⟩)
  | correction => exact .inl (by rw [interpMessage_correction m old kind])

/-- A symbol leaves context and events alone, or interprets the message its dispatch left (R131, R200). -/
theorem runSymbol_tracker_cases (b : Symbol) (s : State) :
    ((runSymbol b s).ctx = s.ctx ∧ (runSymbol b s).eventOut = s.eventOut) ∨
    ((runSymbol b s).ctx =
        (interpMessage (dispatch s.cfg (s.st.append (symPayload b))).st.message s.ctx).ctx ∧
      (runSymbol b s).eventOut = s.eventOut ++
        (interpMessage (dispatch s.cfg (s.st.append (symPayload b))).st.message s.ctx).events) := by
  rcases runSymbol_cases b s with e | ⟨_, _, _, _, e⟩ | ⟨_, _, _, e⟩ | ⟨running, active, room⟩
  · exact .inl (by rw [e]; exact ⟨rfl, rfl⟩)
  · exact .inl (by rw [e]; exact ⟨rfl, rfl⟩)
  · exact .inl (by rw [e]; exact ⟨rfl, rfl⟩)
  rcases runSymbol_active_cases b s running active room with
    ⟨_, e⟩ | ⟨_, _, _, _, e⟩ | ⟨_, _, st, ok, e⟩ | ⟨_, _, _, _, e⟩
  · exact .inl (by rw [e]; exact ⟨rfl, rfl⟩)
  · exact .inl (by rw [e]; exact ⟨rfl, rfl⟩)
  · exact .inr (by rw [e, ok]; exact ⟨rfl, rfl⟩)
  · exact .inl (by rw [e]; exact ⟨rfl, rfl⟩)

/-- `valid` is never cleared by a symbol (R22). -/
theorem runSymbol_valid (b : Symbol) (s : State) (valid : s.ctx.valid = true) :
    (runSymbol b s).ctx.valid = true := by
  rcases runSymbol_tracker_cases b s with ⟨kept, _⟩ | ⟨interpreted, _⟩
  · rw [kept, valid]
  · rw [interpreted]
    exact (interpMessage_valid _ _).2 (.inl valid)

/-- A symbol keeps the equivalence of R210: an interpretation sets `valid` exactly with an event. -/
theorem runSymbol_validIffEvents (b : Symbol) (s : State) (h : s.ValidIffEvents) :
    (runSymbol b s).ValidIffEvents := by
  unfold State.ValidIffEvents at h ⊢
  rcases runSymbol_tracker_cases b s with ⟨kept, keptOut⟩ | ⟨interpreted, emitted⟩
  · rw [kept, keptOut, h]
  · rw [interpreted, emitted, interpMessage_valid, h, ← not_and_or, ne_eq, List.append_eq_nil_iff]

/-- The same with another `direct_continue`: what two runs of R209 differ in. -/
def Message.withDirect (m : Message) (v : U8) : Message := { m with directContinue := v }

def StreamState.withDirect (st : StreamState) (v : U8) : StreamState :=
  { st with message := st.message.withDirect v }

def State.withDirect (s : State) (v : U8) : State := { s with st := s.st.withDirect v }

def TableResult.withDirect (r : TableResult) (v : U8) : TableResult := { r with message := r.message.withDirect v }

def Dispatched.withDirect (d : Dispatched) (v : U8) : Dispatched := { d with st := d.st.withDirect v }

@[simp] theorem withDirect_kind (st : StreamState) (v : U8) : (st.withDirect v).message.kind = st.message.kind := rfl
@[simp] theorem withDirect_index (st : StreamState) (v : U8) :
    (st.withDirect v).messagePacketIndex = st.messagePacketIndex := rfl
@[simp] theorem withDirect_ok (r : TableResult) (v : U8) : (r.withDirect v).ok = r.ok := rfl

/-- `direct_continue` is overwritten by its own slot and kept by every other (R107). -/
theorem write_withDirect (m : Message) (v : U8) (slot : Slot) (raw : Raw) :
    ∃ w, (m.withDirect v).write slot raw = (m.write slot raw).withDirect w := by
  cases slot with
  | directContinue => exact ⟨raw.setWidth 8, rfl⟩
  | typeCode | branchCode | eventCode | instructionCount | address | timestamp => exact ⟨v, rfl⟩

theorem writeMapped_withDirect (m : Message) (v : U8) (x : Mapped) :
    (m.withDirect v).writeMapped x = (m.writeMapped x).withDirect v := by
  cases x <;> rfl

/-- A table decode reads no message field (R104). -/
theorem decodeFields_withDirect (cfg : Config) (st : StreamState) (fs : List FieldDesc) (off : Nat)
    (cand : Option Kind) (sc : Scratch) (m : Message) (v : U8) :
    ∃ w, decodeFields cfg st fs off cand sc (m.withDirect v) =
      (decodeFields cfg st fs off cand sc m).withDirect w := by
  induction fs generalizing off cand sc m v with
  | nil => exact ⟨v, rfl⟩
  | cons f fs ih =>
    simp only [decodeFields]
    split
    · exact ⟨v, rfl⟩
    next raw _ =>
      obtain ⟨w, written⟩ := write_withDirect m v f.slot raw
      rw [written, writeMapped_withDirect]
      split
      · exact ⟨w, rfl⟩
      · split
        · exact ⟨w, rfl⟩
        · exact ih _ _ _ _ w

theorem decodeTable_withDirect (cfg : Config) (st : StreamState) (v : U8) (t : List FieldDesc) :
    ∃ w, decodeTable cfg (st.withDirect v) t = (decodeTable cfg st t).withDirect w := by
  rw [decodeTable, decodeFields_congr cfg st (st.withDirect v) rfl fun _ _ => rfl]
  exact decodeFields_withDirect cfg st t 0 none Scratch.start st.message v

/-- Neither does a dispatch; in `Undetermined` it starts from zeroed fields (R160, R161). -/
theorem dispatch_withDirect (cfg : Config) (st : StreamState) (v : U8) :
    ∃ w, dispatch cfg (st.withDirect v) = (dispatch cfg st).withDirect w := by
  by_cases first : st.message.kind = .undetermined
  · refine ⟨(dispatch cfg st).st.message.directContinue, ?_⟩
    rw [dispatch_undetermined cfg st first, dispatch_undetermined cfg (st.withDirect v) first]
    rfl
  · rw [dispatch_determined cfg st first, dispatch_determined cfg (st.withDirect v) first]
    obtain ⟨w, decoded⟩ := decodeTable_withDirect cfg st v (table st.message.kind st.messagePacketIndex.toNat)
    simp only [dispatchLater, withDirect_kind, withDirect_index, decoded, withDirect_ok]
    split
    · split <;> exact ⟨w, rfl⟩
    · exact ⟨v, rfl⟩

/-- The tracker does not read it (R202 to R205). -/
theorem interpMessage_withDirect (m : Message) (v : U8) (old : TrackingContext) :
    interpMessage (m.withDirect v) old = interpMessage m old := rfl

theorem endPacket_withDirect (eom : Bool) (s : State) (v : U8) :
    ∃ w, endPacket eom (s.withDirect v) = (endPacket eom s).withDirect w := by
  obtain ⟨w, dispatched⟩ := dispatch_withDirect s.cfg s.st v
  refine ⟨w, ?_⟩
  rcases answer : dispatch s.cfg s.st with ⟨st, _ | r⟩
  all_goals
    rw [answer] at dispatched
  · cases eom
    · rw [endPacket_ok s st answer, endPacket_ok (s.withDirect v) (st.withDirect w) dispatched]
      rfl
    · rw [endPacket_message s st answer, endPacket_message (s.withDirect v) (st.withDirect w) dispatched]
      rfl
  · rw [endPacket_fail eom s st r answer, endPacket_fail eom (s.withDirect v) (st.withDirect w) r dispatched]
    rfl

/-- Two states that differ only in `direct_continue` still do after a symbol (R209). -/
theorem runSymbol_withDirect (b : Symbol) (s : State) (v : U8) :
    ∃ w, runSymbol b (s.withDirect v) = (runSymbol b s).withDirect w := by
  cases running : s.aborted
  case true => exact ⟨v, by rw [runSymbol_aborted b s running, runSymbol_aborted b (s.withDirect v) running]⟩
  rw [runSymbol_running b s running, runSymbol_running b (s.withDirect v) running]
  by_cases ignoring : s.st.message.kind = .ignoring
  · rw [symbolStep_ignoring b s ignoring, symbolStep_ignoring b (s.withDirect v) ignoring]
    split <;> exact ⟨v, rfl⟩
  cases full : s.st.full
  case true =>
    rw [symbolStep_full b s ignoring full, symbolStep_full b (s.withDirect v) ignoring full]
    exact ⟨v, rfl⟩
  rw [symbolStep_append b s ignoring full, symbolStep_append b (s.withDirect v) ignoring full]
  split
  · exact endPacket_withDirect (symEom b) { s with st := s.st.append (symPayload b) } v
  · exact ⟨v, rfl⟩

theorem runSymbols_withDirect (bs : List Symbol) (s : State) (v : U8) :
    ∃ w, runSymbols bs (s.withDirect v) = (runSymbols bs s).withDirect w := by
  induction bs generalizing s v with
  | nil => exact ⟨v, rfl⟩
  | cons b bs ih =>
    obtain ⟨w, stepped⟩ := runSymbol_withDirect b s v
    rw [runSymbols_cons, runSymbols_cons, stepped]
    exact ih (runSymbol b s) w

end Sys2Proof.Machine

namespace Sys2Proof.Proofs

open Sys2Proof.Machine

/-- Settles O46. -/
theorem indirectBranchInterpretation : Obligations.IndirectBranchInterpretation :=
  fun s isIB => interpret_of_interpMessage s _ _ (interpMessage_indirectBranch _ _ isIB)

/-- Settles O48: the tracker is the one writer of the context. -/
theorem storedAddressIsNotTheLiveAdvance : Obligations.StoredAddressIsNotTheLiveAdvance := by
  intro b s m
  rcases runSymbol_tracker_cases b s with ⟨kept, _⟩ | ⟨interpreted, _⟩
  · exact .inl (by rw [kept])
  · rw [interpreted]
    exact interpMessage_address m s.ctx

/-- Settles O49: every symbol keeps it, and no port is read. -/
theorem validStaysTrue : Obligations.ValidStaysTrue :=
  fun s t stepped valid =>
    step_preserves (fun s => s.ctx.valid = true) runSymbol_valid (fun _ _ h => h) (fun _ _ h => h) s t valid stepped

/-- Settles O50: every symbol keeps the equivalence, and the ports of the input are not in it. -/
theorem stepKeepsValidIffEvents : Obligations.StepKeepsValidIffEvents :=
  fun s t equivalent stepped =>
    step_preserves State.ValidIffEvents runSymbol_validIffEvents (fun _ _ h => h) (fun _ _ h => h) s t equivalent
      stepped

/-- Settles O51: the second run ends in the first one's state with some `direct_continue`. -/
theorem directContinueHasNoEffect : Obligations.DirectContinueHasNoEffect := by
  intro bs s v s'
  obtain ⟨w, same⟩ := runSymbols_withDirect bs s v
  rw [show runSymbols bs s' = _ from same]
  exact ⟨rfl, rfl⟩

/-- Settles O52: the model's failure branch, evaluated. -/
theorem trackerFailureAborts : Obligations.TrackerFailureAborts := fun _ => rfl

end Sys2Proof.Proofs
end

section
/-! SUPPORT and PROOF. The invariant (R24, R27, R28, R29, R31, R181, R208): the answer of a dispatch for each row of the
packet table, then what every symbol keeps. -/

namespace Sys2Proof.Machine

variable (cfg : Config) (st : StreamState)

/-- A packet 0 of IndirectBranch (R170): the fresh message, whole. -/
theorem dispatch_ibP0 (first : st.message.kind = .undetermined) (typed : st.packetBits.extractLsb' 0 6 = 4#6)
    (fits : 7 ≤ st.packetBitCount.toNat) :
    dispatch cfg st = ⟨{ st with messagePacketIndex := 1#8, message :=
      ⟨.indirectBranch, branchCodeMap cfg (st.packetBits.extractLsb' 6 1),
        (bitSlice st.packetBits 7 (min st.packetBitCount.toNat 23)).setWidth 16, 0#8, 0#32, 0#64⟩ }, none⟩ := by
  have decoded := decodeTable_ibP0 cfg st.zeroMessage typed fits
  rw [Proofs.typeDeterminationStartsAFreshMessage cfg st .indirectBranch first (by decide) (by rw [decoded]), decoded]
  rfl

/-- A packet 0 of IndirectBranchSync (R173). -/
theorem dispatch_ibsP0 (first : st.message.kind = .undetermined) (typed : st.packetBits.extractLsb' 0 6 = 12#6)
    (fits : 8 ≤ st.packetBitCount.toNat) :
    dispatch cfg st = ⟨{ st with messagePacketIndex := 1#8, message :=
      ⟨.indirectBranchSync, branchCodeMap cfg (st.packetBits.extractLsb' 7 1),
        (bitSlice st.packetBits 8 (min st.packetBitCount.toNat 24)).setWidth 16,
        (st.packetBits.extractLsb' 6 1).setWidth 8, 0#32, 0#64⟩ }, none⟩ := by
  have decoded := decodeTable_ibsP0 cfg st.zeroMessage typed fits
  rw [Proofs.typeDeterminationStartsAFreshMessage cfg st .indirectBranchSync first (by decide) (by rw [decoded]),
    decoded]
  rfl

/-- A packet 0 of Sync (R176). -/
theorem dispatch_syncP0 (first : st.message.kind = .undetermined) (typed : st.packetBits.extractLsb' 0 6 = 9#6)
    (fits : 7 ≤ st.packetBitCount.toNat) :
    dispatch cfg st = ⟨{ st with messagePacketIndex := 1#8, message :=
      ⟨.sync, .undefined, (bitSlice st.packetBits 7 (min st.packetBitCount.toNat 23)).setWidth 16,
        (st.packetBits.extractLsb' 6 1).setWidth 8, 0#32, 0#64⟩ }, none⟩ := by
  have decoded := decodeTable_syncP0 cfg st.zeroMessage typed fits
  rw [Proofs.typeDeterminationStartsAFreshMessage cfg st .sync first (by decide) (by rw [decoded]), decoded]
  rfl

/-- A packet 0 of Correction (R179). -/
theorem dispatch_corrP0 (first : st.message.kind = .undetermined) (typed : st.packetBits.extractLsb' 0 6 = 33#6)
    (fits : 12 ≤ st.packetBitCount.toNat) (event : st.packetBits.extractLsb' 6 6 = 0xa#6) :
    dispatch cfg st = ⟨{ st with messagePacketIndex := 1#8, message :=
      ⟨.correction, .undefined, (bitSlice st.packetBits 12 (min st.packetBitCount.toNat 28)).setWidth 16,
        0#8, 0#32, 0#64⟩ }, none⟩ := by
  have decoded := decodeTable_corrP0 cfg st.zeroMessage typed fits
  have valid : (decodeTable cfg st.zeroMessage (table .correction 0)).ok = true := by
    rw [decoded]
    exact decide_eq_true event
  rw [Proofs.typeDeterminationStartsAFreshMessage cfg st .correction first (by decide) valid, decoded]
  simp only [zeroMessage_packetBits, event, if_true]
  rfl

/-- An address packet (R171, R174, R177). -/
theorem dispatch_address (hk : st.message.kind = .indirectBranch ∨ st.message.kind = .indirectBranchSync ∨
      st.message.kind = .sync) (index : st.messagePacketIndex = 1#8) :
    dispatch cfg st = ⟨{ st with messagePacketIndex := 2#8, message := { st.message with
      address := (bitSlice st.packetBits 0 (min st.packetBitCount.toNat 32)).setWidth 32 } }, none⟩ := by
  have expected : (1#8).toNat < maxPackets st.message.kind := by
    rcases hk with h | h | h <;> rw [h] <;> decide
  obtain ⟨_, message⟩ := Proofs.addressTablesDecode cfg st _ hk
  rw [Proofs.laterPacketsNeverFail cfg st (by rw [index]; decide) (by rw [index]; exact expected), index]
  rw [show (1#8).toNat = 1 from rfl, message]
  rfl

/-- A timestamp packet (R172, R175, R178, R180). -/
theorem dispatch_timestamp (h : ((st.message.kind = .indirectBranch ∨ st.message.kind = .indirectBranchSync ∨
      st.message.kind = .sync) ∧ st.messagePacketIndex = 2#8) ∨
      (st.message.kind = .correction ∧ st.messagePacketIndex = 1#8)) :
    dispatch cfg st = ⟨{ st with messagePacketIndex := st.messagePacketIndex + 1#8, message := { st.message with
      timestamp := (bitSlice st.packetBits 0 (min st.packetBitCount.toNat 64)).setWidth 64 } }, none⟩ := by
  have started : 1 ≤ st.messagePacketIndex.toNat := by
    rcases h with ⟨_, index⟩ | ⟨_, index⟩ <;> rw [index] <;> decide
  have expected : st.messagePacketIndex.toNat < maxPackets st.message.kind := by
    rcases h with ⟨hk | hk | hk, index⟩ | ⟨hk, index⟩ <;> rw [index, hk] <;> decide
  obtain ⟨_, message⟩ := Proofs.timestampTablesDecode cfg st st.message.kind st.messagePacketIndex.toNat
    (h.imp (And.imp_right (congrArg BitVec.toNat)) (And.imp_right (congrArg BitVec.toNat)))
  rw [Proofs.laterPacketsNeverFail cfg st started expected, message]

/-- The map has two values (R106). -/
theorem branchCodeMap_cases (x : BitVec 1) :
    branchCodeMap cfg x = cfg.branchCode0 ∨ branchCodeMap cfg x = cfg.branchCode1 :=
  ite_eq_or_eq _ _ _

/-- A bit zero-extended is at most 1 (R28). -/
theorem toNat_setWidth_bit_le {w : Nat} (x : BitVec 1) : (x.setWidth w).toNat ≤ 1 := by
  rw [BitVec.toNat_setWidth]
  exact (Nat.mod_le _ _).trans (Nat.le_of_lt_succ x.isLt)

/-- What R27 and R28 ask of a message's data in every state. -/
structure DataLegal (m : Message) : Prop where
  branchKind : branchKindLegal cfg m
  direct : m.directContinue.toNat ≤ 1

theorem dataLegal_zeroed (k : Kind) : DataLegal cfg (Message.zeroed k) := ⟨.inl rfl, Nat.zero_le 1⟩

/-- A write to `direct_continue` must be of one bit; the other slots hold neither field (R107). -/
theorem dataLegal_write {m : Message} (h : DataLegal cfg m) (slot : Slot) (raw : Raw)
    (narrow : slot = .directContinue → raw.toNat ≤ 1) : DataLegal cfg (m.write slot raw) := by
  cases slot with
  | directContinue =>
    refine ⟨h.branchKind, ?_⟩
    show (raw.setWidth 8).toNat ≤ 1
    rw [BitVec.toNat_setWidth]
    exact (Nat.mod_le _ _).trans (narrow rfl)
  | typeCode | branchCode | eventCode | instructionCount | address | timestamp => exact ⟨h.branchKind, h.direct⟩

/-- The one mapped value that reaches the message is from `BRANCH_CODE_MAP` (R106, R107). -/
theorem dataLegal_writeMapped {m : Message} (h : DataLegal cfg m) (v : Option Validator) (raw : Raw) :
    DataLegal cfg (m.writeMapped (validate cfg v raw).2) := by
  match v with
  | none => exact h
  | some (.type k) => exact h
  | some .event => exact h
  | some .branch => exact ⟨.inr (branchCodeMap_cases cfg _), h.direct⟩

/-- A field of one bit reads 0 or 1 (R100). -/
theorem toNat_le_one_of_extract {off : Nat} {raw : Raw} (h : extract st off 1 = some raw) : raw.toNat ≤ 1 := by
  rw [extract] at h
  split at h
  · cases h
  · cases h
    exact toNat_setWidth_bit_le _

/-- A table whose `direct_continue` fields are one bit wide keeps the data legal, validated or not (R105). -/
theorem dataLegal_decodeFields (fs : List FieldDesc)
    (narrow : ∀ f ∈ fs, f.slot = .directContinue → f.srcBits = 1) (off : Nat) (cand : Option Kind) (sc : Scratch)
    (m : Message) (h : DataLegal cfg m) : DataLegal cfg (decodeFields cfg st fs off cand sc m).message := by
  induction fs generalizing off cand sc m with
  | nil => exact h
  | cons f fs ih =>
    rw [decodeFields]
    split
    · exact h
    next raw read =>
      have written : DataLegal cfg (m.write f.slot raw) := by
        refine dataLegal_write cfg h f.slot raw fun direct => ?_
        have oneBit := narrow f List.mem_cons_self direct
        rw [fieldWidth_fixed f _ _ (by rw [oneBit]; decide), oneBit] at read
        exact toNat_le_one_of_extract st read
      have mapped := dataLegal_writeMapped cfg written f.validator raw
      split
      · exact written
      · split
        · exact mapped
        · exact ih (fun g hg => narrow g (List.mem_cons_of_mem f hg)) _ _ _ _ mapped

/-- The registry has `direct_continue` in one-bit fields alone (R168). -/
theorem table_direct_narrow (k : Kind) (i : Nat) : ∀ f ∈ table k i, f.slot = .directContinue → f.srcBits = 1 := by
  unfold table
  split <;> decide

theorem dataLegal_decodeTable (k : Kind) (i : Nat) (h : DataLegal cfg st.message) :
    DataLegal cfg (decodeTable cfg st (table k i)).message :=
  dataLegal_decodeFields cfg st _ (table_direct_narrow k i) 0 none Scratch.start st.message h

theorem dataLegal_tryCandidates (ks : List Kind) (h : DataLegal cfg st.message) :
    DataLegal cfg (tryCandidates cfg ks st).st.message := by
  induction ks generalizing st with
  | nil => exact h
  | cons k ks ih =>
    have decoded := dataLegal_decodeTable cfg st k 0 h
    simp only [tryCandidates]
    split
    · exact ⟨decoded.branchKind, decoded.direct⟩
    · exact ih { st with message := (decodeTable cfg st (table k 0)).message } decoded

/-- Whatever a dispatch answers, the data it leaves is legal (R27, R28). -/
theorem dataLegal_dispatch (h : DataLegal cfg st.message) : DataLegal cfg (dispatch cfg st).st.message := by
  by_cases first : st.message.kind = .undetermined
  · rw [dispatch_undetermined cfg st first]
    exact dataLegal_tryCandidates cfg st.zeroMessage priority (dataLegal_zeroed cfg _)
  · rw [dispatch_determined cfg st first]
    have decoded := dataLegal_decodeTable cfg st st.message.kind st.messagePacketIndex.toNat h
    rcases dispatchLater_cases cfg st with ⟨_, _, e⟩ | ⟨_, _, e⟩ | ⟨_, e⟩ <;> rw [e]
    · exact decoded
    · exact ⟨decoded.branchKind, decoded.direct⟩
    · exact ⟨h.branchKind, h.direct⟩

/-- R29 and R181 for a message under construction: its index is one of its stages, and what it has not carried is 0. -/
structure StageLegal : Prop where
  started : 1 ≤ st.messagePacketIndex.toNat
  bounded : st.messagePacketIndex.toNat ≤ maxPackets st.message.kind
  message : messageLegal cfg st

/-- A control state has no stage (R29). -/
theorem StageLegal.determined {cfg : Config} {st : StreamState} (h : StageLegal cfg st) :
    st.message.kind ≠ .ignoring ∧ st.message.kind ≠ .undetermined := by
  have hasPackets : 1 ≤ maxPackets st.message.kind := h.started.trans h.bounded
  constructor <;> intro control <;> rw [control] at hasPackets <;> exact absurd hasPackets (by decide)

/-- For a determined kind the stage is what R29 says of the index. -/
theorem indexLegal_iff_of_determined (determined : st.message.kind ≠ .ignoring ∧ st.message.kind ≠ .undetermined) :
    indexLegal st ↔ 1 ≤ st.messagePacketIndex.toNat ∧ st.messagePacketIndex.toNat ≤ maxPackets st.message.kind := by
  unfold indexLegal
  rw [if_neg (not_or.2 determined)]

/-- A packet 0 that validates leaves a message at its first stage (R161, R181). -/
theorem stageLegal_dispatch_first {st' : StreamState} (first : st.message.kind = .undetermined)
    (ok : dispatch cfg st = ⟨st', none⟩) : StageLegal cfg st' := by
  have tried := ok
  rw [dispatch_undetermined cfg st first] at tried
  rcases tryCandidates_cases cfg priority st.zeroMessage with ⟨k, hk, m, _, valid, _⟩ | ⟨_, _, e⟩
  case inr => rw [e] at tried; cases tried
  rw [decodeTable_ok_message] at valid
  simp only [priority, List.mem_cons, List.not_mem_nil, or_false] at hk
  rcases hk with rfl | rfl | rfl | rfl
  · obtain ⟨_, okIff, _⟩ := Proofs.ibP0TableDecodes cfg st.zeroMessage
    obtain ⟨typed, fits⟩ := okIff.1 valid
    cases ok.symm.trans (dispatch_ibP0 cfg st first typed fits)
    exact ⟨le_rfl, show 1 ≤ 3 by decide, branchCodeMap_cases cfg _, rfl, fun _ => rfl, fun _ => rfl⟩
  · obtain ⟨_, _, okIff, _⟩ := Proofs.ibsP0TableDecodes cfg st.zeroMessage
    obtain ⟨typed, fits⟩ := okIff.1 valid
    cases ok.symm.trans (dispatch_ibsP0 cfg st first typed fits)
    exact ⟨le_rfl, show 1 ≤ 3 by decide, branchCodeMap_cases cfg _, fun _ => rfl, fun _ => rfl⟩
  · obtain ⟨_, okIff, _⟩ := Proofs.syncP0TableDecodes cfg st.zeroMessage
    obtain ⟨typed, fits⟩ := okIff.1 valid
    cases ok.symm.trans (dispatch_syncP0 cfg st first typed fits)
    exact ⟨le_rfl, show 1 ≤ 3 by decide, rfl, fun _ => rfl, fun _ => rfl⟩
  · obtain ⟨_, _, okIff, _⟩ := Proofs.corrP0TableDecodes cfg st.zeroMessage
    obtain ⟨typed, fits, event⟩ := okIff.1 valid
    cases ok.symm.trans (dispatch_corrP0 cfg st first typed fits event)
    exact ⟨le_rfl, show 1 ≤ 2 by decide, rfl, rfl, rfl, fun _ => rfl⟩

/-- An address moves a message from its first stage to its second (R171, R174, R177, R181). -/
theorem stageLegal_address (h : StageLegal cfg st) (hk : st.message.kind = .indirectBranch ∨
      st.message.kind = .indirectBranchSync ∨ st.message.kind = .sync) (index : st.messagePacketIndex = 1#8)
    (a : Address) :
    StageLegal cfg { st with messagePacketIndex := 2#8, message := { st.message with address := a } } := by
  obtain ⟨bits, count, ⟨kind, branchKind, icount, direct, address, timestamp⟩, i⟩ := st
  obtain ⟨_, _, message⟩ := h
  have secondStage : ¬ 2 ≤ 1 := by decide
  subst index
  rcases hk with rfl | rfl | rfl
  · obtain ⟨branch, direct, _, noTimestamp⟩ := message
    exact ⟨show 1 ≤ 2 by decide, show 2 ≤ 3 by decide, branch, direct, fun h => absurd h secondStage,
      fun _ => noTimestamp (show 1 ≤ 2 by decide)⟩
  · obtain ⟨branch, _, noTimestamp⟩ := message
    exact ⟨show 1 ≤ 2 by decide, show 2 ≤ 3 by decide, branch, fun h => absurd h secondStage,
      fun _ => noTimestamp (show 1 ≤ 2 by decide)⟩
  · obtain ⟨branch, _, noTimestamp⟩ := message
    exact ⟨show 1 ≤ 2 by decide, show 2 ≤ 3 by decide, branch, fun h => absurd h secondStage,
      fun _ => noTimestamp (show 1 ≤ 2 by decide)⟩

/-- A timestamp moves a message to its last stage, where nothing is left to be 0 (R172, R175, R178, R180, R181). -/
theorem stageLegal_timestamp (h : StageLegal cfg st) (stage : ((st.message.kind = .indirectBranch ∨
      st.message.kind = .indirectBranchSync ∨ st.message.kind = .sync) ∧ st.messagePacketIndex = 2#8) ∨
      (st.message.kind = .correction ∧ st.messagePacketIndex = 1#8)) (ts : Timestamp) :
    StageLegal cfg { st with messagePacketIndex := st.messagePacketIndex + 1#8, message := { st.message with
      timestamp := ts } } := by
  obtain ⟨bits, count, ⟨kind, branchKind, icount, direct, address, timestamp⟩, i⟩ := st
  obtain ⟨_, _, message⟩ := h
  have past1 : ¬ 3 ≤ 1 := by decide
  have past2 : ¬ 3 ≤ 2 := by decide
  rcases stage with ⟨rfl | rfl | rfl, rfl⟩ | ⟨rfl, rfl⟩
  · obtain ⟨branch, direct, _, _⟩ := message
    exact ⟨show 1 ≤ 3 by decide, show 3 ≤ 3 by decide, branch, direct, fun h => absurd h past1,
      fun h => absurd h past2⟩
  · obtain ⟨branch, _, _⟩ := message
    exact ⟨show 1 ≤ 3 by decide, show 3 ≤ 3 by decide, branch, fun h => absurd h past1, fun h => absurd h past2⟩
  · obtain ⟨branch, _, _⟩ := message
    exact ⟨show 1 ≤ 3 by decide, show 3 ≤ 3 by decide, branch, fun h => absurd h past1, fun h => absurd h past2⟩
  · obtain ⟨branch, direct, address, _⟩ := message
    exact ⟨show 1 ≤ 2 by decide, show 2 ≤ 2 by decide, branch, direct, address,
      fun h => absurd h (show ¬ 2 ≤ 1 by decide)⟩

/-- A later packet that decodes moves a message to its next stage (R163, R181). -/
theorem stageLegal_dispatch_later {st' : StreamState} (stage : StageLegal cfg st)
    (ok : dispatch cfg st = ⟨st', none⟩) : StageLegal cfg st' := by
  have answered := ok
  rw [dispatch_determined cfg st stage.determined.2] at answered
  rcases dispatchLater_cases cfg st with ⟨expected, _, _⟩ | ⟨_, _, e⟩ | ⟨_, e⟩
  case inr.inl => rw [e] at answered; cases answered
  case inr.inr => rw [e] at answered; cases answered
  have ofToNat {i : U8} : st.messagePacketIndex.toNat = i.toNat → st.messagePacketIndex = i := BitVec.eq_of_toNat_eq
  rcases laterPacket_cases stage.started expected with ⟨hk, index⟩ | ⟨hk, index⟩ | ⟨hk, index⟩
  · cases ok.symm.trans (dispatch_address cfg st hk (ofToNat index))
    exact stageLegal_address cfg st stage hk (ofToNat index) _
  · cases ok.symm.trans (dispatch_timestamp cfg st (.inl ⟨hk, ofToNat index⟩))
    exact stageLegal_timestamp cfg st stage (.inl ⟨hk, ofToNat index⟩) _
  · cases ok.symm.trans (dispatch_timestamp cfg st (.inr ⟨hk, ofToNat index⟩))
    exact stageLegal_timestamp cfg st stage (.inr ⟨hk, ofToNat index⟩) _

/-- An empty buffer is legal (R24). -/
theorem bufferLegal_resetBuffer : bufferLegal st.resetBuffer := by
  rw [bufferLegal_iff]
  exact ⟨rfl, Nat.zero_le 120, show 0 < 1 by decide⟩

/-- An append that fits keeps the buffer legal (R24, R54). -/
theorem bufferLegal_append (p : Payload) (h : bufferLegal st) (room : st.packetBitCount.toNat + 6 ≤ 120) :
    bufferLegal (st.append p) := by
  rw [bufferLegal_iff] at h ⊢
  obtain ⟨aligned, _, below⟩ := h
  rw [toNat_append_count st p room]
  refine ⟨by omega, room, Nat.lt_pow_two_of_testBit _ fun i hi => ?_⟩
  have unwritten : st.packetBits.getLsbD i = false :=
    Nat.testBit_lt_two_pow (below.trans_le (Nat.pow_le_pow_right (by decide) (by omega)))
  exact (getLsbD_append_outside st p i (.inr hi)).trans unwritten

/-- A control state with an empty buffer, index 0 and legal data is legal: where recovery, resynchronization and the end
of a message lead. -/
theorem legal_control (h : DataLegal cfg st.message) (k : Kind) (control : k = .ignoring ∨ k = .undetermined) :
    (st.setKindIndex k 0#8).resetBuffer.Legal cfg where
  buffer := bufferLegal_resetBuffer _
  index := by
    unfold indexLegal
    rw [if_pos (by exact control)]
    rfl
  branchKind := h.branchKind
  direct := h.direct
  message := by rcases control with rfl | rfl <;> exact trivial
  ignoring := fun _ => rfl

/-- A message under construction with an empty buffer is legal: where a packet that decodes leads. -/
theorem legal_stage (h : DataLegal cfg st.message) (stage : StageLegal cfg st) : st.resetBuffer.Legal cfg where
  buffer := bufferLegal_resetBuffer st
  index := (indexLegal_iff_of_determined _ (by exact stage.determined)).2 ⟨stage.started, stage.bounded⟩
  branchKind := h.branchKind
  direct := h.direct
  message := stage.message
  ignoring := fun ignoring => absurd ignoring stage.determined.1

/-- Of a legal state in the active kinds, either it awaits a message or one is under construction (R29). -/
theorem stageLegal_of_legal (h : st.Legal cfg) (active : st.message.kind ≠ .ignoring) :
    st.message.kind = .undetermined ∨ StageLegal cfg st := by
  by_cases first : st.message.kind = .undetermined
  · exact .inl first
  · obtain ⟨started, bounded⟩ := (indexLegal_iff_of_determined st ⟨active, first⟩).1 h.index
    exact .inr ⟨started, bounded, h.message⟩

/-- Every symbol keeps the invariant: it leaves the state alone, appends, or leads to one of the two legal forms. -/
theorem runSymbol_inv (b : Symbol) (s : State) (h : s.Inv) : (runSymbol b s).Inv := by
  obtain ⟨legal, running⟩ := h
  have data : DataLegal s.cfg s.st.message := ⟨legal.branchKind, legal.direct⟩
  have dispatched : DataLegal s.cfg (dispatch s.cfg (s.st.append (symPayload b))).st.message :=
    dataLegal_dispatch s.cfg (s.st.append (symPayload b)) data
  rcases runSymbol_cases b s with e | ⟨_, _, _, _, e⟩ | ⟨_, _, _, e⟩ | ⟨_, active, room⟩
  · rw [e]; exact ⟨legal, running⟩
  · rw [e]; exact ⟨legal_control s.cfg s.st data _ (.inr rfl), running⟩
  · rw [e]; exact ⟨legal_control s.cfg s.st data _ (.inl rfl), running⟩
  rcases runSymbol_active_cases b s running active room with
    ⟨_, e⟩ | ⟨_, _, st, ok, e⟩ | ⟨_, _, st, ok, e⟩ | ⟨_, st, r, failed, e⟩
  · rw [e]
    exact ⟨⟨bufferLegal_append s.st _ legal.buffer room, legal.index, legal.branchKind, legal.direct, legal.message,
      fun ignoring => absurd ignoring active⟩, running⟩
  · rw [ok] at dispatched
    rw [e]
    have stage : StageLegal s.cfg st := by
      rcases stageLegal_of_legal s.cfg s.st legal active with first | stage
      · exact stageLegal_dispatch_first s.cfg (s.st.append (symPayload b)) first ok
      · exact stageLegal_dispatch_later s.cfg (s.st.append (symPayload b))
          ⟨stage.started, stage.bounded, stage.message⟩ ok
    exact ⟨legal_stage s.cfg st dispatched stage, running⟩
  · rw [ok] at dispatched
    rw [e]
    exact ⟨legal_control s.cfg st dispatched _ (.inr rfl), running⟩
  · rw [failed] at dispatched
    rw [e]
    exact ⟨legal_control s.cfg st dispatched _ (by cases symEom b <;> simp [failureKind]), running⟩

/-- Session creation leads to a control state (R32). -/
theorem resetWith_legal : (State.resetWith cfg).st.Legal cfg := by
  have control : resetKindOf cfg = .ignoring ∨ resetKindOf cfg = .undetermined := by
    cases kind : cfg.resetKind with
    | ignoring => exact .inl (resetKindOf_of_ignoring kind)
    | undetermined => exact .inr (resetKindOf_of_undetermined kind)
  exact legal_control cfg (State.resetWith cfg).st (dataLegal_zeroed cfg _) (resetKindOf cfg) control

end Sys2Proof.Machine

namespace Sys2Proof.Proofs

open Sys2Proof.Machine

/-- Settles O54: every symbol keeps the invariant, and no port is in it. -/
theorem stepKeepsTheInvariant : Obligations.StepKeepsTheInvariant :=
  fun s t inv stepped =>
    step_preserves State.Inv runSymbol_inv (fun _ _ h => ⟨h.stream, h.running⟩) (fun _ _ h => ⟨h.stream, h.running⟩)
      s t inv stepped

/-- Settles O55: the machine after session creation is in a control state, not valid, with no event out. -/
theorem resetMeetsTheInvariants : Obligations.ResetMeetsTheInvariants := by
  intro cfg
  refine ⟨⟨resetWith_legal cfg, resetWith_aborted cfg⟩, ?_⟩
  unfold State.ValidIffEvents
  rw [resetWith_ctx]
  exact ⟨fun valid => absurd valid (by decide), fun emitted => absurd rfl emitted⟩

/-- Settles O57: the default parameters and the ports of a new session, read off its definition. -/
theorem resetDefaults : Obligations.ResetDefaults := ⟨rfl, rfl, rfl, rfl, rfl, rfl⟩

/-- Settles O60: each field and code is read off its definition. -/
theorem eventRecordsAndCodes : Obligations.EventRecordsAndCodes :=
  ⟨fun _ _ _ _ => rfl, fun _ _ => rfl, rfl, rfl, rfl⟩

end Sys2Proof.Proofs
end

section
/-! SUPPORT and PROOF. Whole packets and whole messages: what each row's packet leaves where it goes on, and what a
message of any length is interpreted as where it ends (R73, R74, R131, R160, R181). -/

namespace Sys2Proof.Machine

/-- The stream state with the bits of a packet instruction held: what the dispatcher meets (R54). -/
def StreamState.holdingPacket (st : StreamState) (i : Instr) : StreamState :=
  { st with packetBits := packetBitsOf i, packetBitCount := BitVec.ofNat 8 (6 * packetLenOf i) }

/-- `s` between two packets, with message `m` at index `x` (R137). -/
def State.betweenPackets (s : State) (m : Message) (x : U8) : State :=
  { s with st := { packetBits := 0#120, packetBitCount := 0#8, message := m, messagePacketIndex := x } }

/-- `s` after the end of message `m` (R131, R140). -/
def State.interpreted (s : State) (m : Message) : State :=
  { s with
    ctx := (interpMessage m s.ctx).ctx
    eventOut := s.eventOut ++ (interpMessage m s.ctx).events
    st := { packetBits := 0#120, packetBitCount := 0#8, message := { m with kind := .undetermined },
            messagePacketIndex := 0#8 } }

/-- In `s` the packet instruction `i` is dispatched without a failure, with message `m` and index `x` as the answer
(R160). -/
structure PacketLeads (s : State) (i : Instr) (m : Message) (x : U8) : Prop where
  wellFormed : i.WellFormed
  isPacket : encode i = .packet (packetPayloads i)
  length : 1 ≤ packetLenOf i ∧ packetLenOf i ≤ 20
  dispatched : dispatch s.cfg (s.st.holdingPacket i) =
    ⟨{ s.st.holdingPacket i with message := m, messagePacketIndex := x }, none⟩

@[simp] theorem holdingPacket_packetBits (st : StreamState) (i : Instr) :
    (st.holdingPacket i).packetBits = packetBitsOf i := rfl

/-- The 8-bit count holds the length of every legal packet (R24). -/
theorem toNat_holdingPacket_count (st : StreamState) {i : Instr} (len : packetLenOf i ≤ 20) :
    (st.holdingPacket i).packetBitCount.toNat = 6 * packetLenOf i := by
  have noWrap : 6 * packetLenOf i < 256 := by omega
  rw [StreamState.holdingPacket, BitVec.toNat_ofNat]
  exact Nat.mod_eq_of_lt noWrap

section
variable {s : State} {i : Instr} {m : Message} {x : U8}

/-- A packet with EOP alone leaves its message open (R133). -/
theorem PacketLeads.runSymbols_eop (h : PacketLeads s i m x) (hs : s.PacketStart) :
    runSymbols (packetSymbols 0b01#ctrlBits (packetPayloads i)) s = s.betweenPackets m x := by
  rw [runSymbols_packetPayloads i h.wellFormed h.length.1 h.length.2 s hs _ rfl]
  exact endPacket_ok { s with st := s.st.holdingPacket i } _ h.dispatched

/-- A packet with EOP and EOM ends it (R135). -/
theorem PacketLeads.runSymbols_eopm (h : PacketLeads s i m x) (hs : s.PacketStart) :
    runSymbols (packetSymbols 0b11#ctrlBits (packetPayloads i)) s = s.interpreted m := by
  rw [runSymbols_packetPayloads i h.wellFormed h.length.1 h.length.2 s hs _ rfl]
  exact endPacket_message { s with st := s.st.holdingPacket i } _ h.dispatched

/-- As an instruction, a packet is its symbols with EOP alone (log 18). -/
theorem PacketLeads.exec_eq (h : PacketLeads s i m x) (hs : s.PacketStart) :
    exec i s = .next (s.betweenPackets m x) := by
  rw [Proofs.execRunsTheCodeOnTheWire i s, h.isPacket, ← h.runSymbols_eop hs]
  rfl

/-- A message of one packet ends with it (R74). -/
theorem PacketLeads.afterMessage_last (h : PacketLeads s i m x) (hs : s.PacketStart) :
    s.afterMessage [i] = s.interpreted m := h.runSymbols_eopm hs

/-- A message of more packets goes on behind its first (R74). -/
theorem PacketLeads.afterMessage_cons (h : PacketLeads s i m x) (hs : s.PacketStart) (j : Instr) (rest : List Instr) :
    s.afterMessage (i :: j :: rest) = (s.betweenPackets m x).afterMessage (j :: rest) := by
  rw [State.afterMessage, List.map_cons, List.map_cons, messageSymbols, runSymbols_append, h.runSymbols_eop hs]
  rfl

end

/-- Between packets of a message the block is at the start of a packet. -/
theorem packetStart_betweenPackets {s : State} (hs : s.PacketStart) {m : Message} (hm : m.kind ≠ .ignoring) (x : U8) :
    (s.betweenPackets m x).PacketStart := ⟨hs.running, hm, rfl, rfl⟩

/-- After a message it is too. -/
theorem packetStart_interpreted {s : State} (hs : s.PacketStart) (m : Message) : (s.interpreted m).PacketStart :=
  ⟨hs.running, show Kind.undetermined ≠ .ignoring by decide, rfl, rfl⟩

/-- A later packet changes a state between packets in its message and index alone. -/
theorem betweenPackets_of_packetStart {s : State} (hs : s.PacketStart) (m : Message) (x : U8) :
    s.betweenPackets m x = { s with st := { s.st with message := m, messagePacketIndex := x } } := by
  simp only [State.betweenPackets, hs.bits, hs.count]

/-- The terminal field of a packet held: what the instruction carries from its first bit on, cut to the destination
(R76, R103). -/
theorem terminal_holdingPacket (st : StreamState) (i : Instr) (len : packetLenOf i ≤ 20) {lo dst hi w : Nat}
    (e : lo + dst = hi) {x : BitVec w} (hx : (packetBitsOf i).extractLsb' lo w = x)
    (hlt : x.toNat < 2 ^ (6 * packetLenOf i - lo)) (hd : dst ≤ w) :
    (bitSlice (packetBitsOf i) lo (min (st.holdingPacket i).packetBitCount.toNat hi)).setWidth dst =
      x.setWidth dst := by
  subst e
  rw [toNat_holdingPacket_count st len]
  exact bitSlice_terminal (packetBitsOf i) lo (6 * packetLenOf i) dst w x hx hlt hd

section
variable {s : State} (first : s.st.message.kind = .undetermined) {len : Nat}
include first

/-- What `IB.P0` leads to (R170). -/
theorem packetLeads_ibP0 {bc : BitVec 1} {count : BitVec 113} (wf : (Instr.ibP0 len bc count).WellFormed) :
    PacketLeads s (.ibP0 len bc count)
      ⟨.indirectBranch, branchCodeMap s.cfg bc, count.setWidth 16, 0#8, 0#32, 0#64⟩ 1#8 := by
  obtain ⟨hmin, hle, hlt⟩ : 2 ≤ len ∧ len ≤ 20 ∧ count.toNat < 2 ^ (6 * len - 7) := (tailFits_iff ..).1 wf
  obtain ⟨hType, hBranch, hCount⟩ := packetBitsOf_ibP0_fields len bc count
  have held : (s.st.holdingPacket (.ibP0 len bc count)).packetBitCount.toNat = 6 * len :=
    toNat_holdingPacket_count s.st hle
  have answered := dispatch_ibP0 s.cfg (s.st.holdingPacket (.ibP0 len bc count)) first hType (by omega)
  rw [holdingPacket_packetBits,
    terminal_holdingPacket s.st (.ibP0 len bc count) hle rfl hCount hlt (by decide), hBranch] at answered
  exact ⟨wf, rfl, ⟨Nat.le_of_succ_le hmin, hle⟩, answered⟩

/-- What `IBS.P0` leads to (R173). -/
theorem packetLeads_ibsP0 {dc bc : BitVec 1} {count : BitVec 112} (wf : (Instr.ibsP0 len dc bc count).WellFormed) :
    PacketLeads s (.ibsP0 len dc bc count)
      ⟨.indirectBranchSync, branchCodeMap s.cfg bc, count.setWidth 16, dc.setWidth 8, 0#32, 0#64⟩ 1#8 := by
  obtain ⟨hmin, hle, hlt⟩ : 2 ≤ len ∧ len ≤ 20 ∧ count.toNat < 2 ^ (6 * len - 8) := (tailFits_iff ..).1 wf
  obtain ⟨hType, hDirect, hBranch, hCount⟩ := packetBitsOf_ibsP0_fields len dc bc count
  have held : (s.st.holdingPacket (.ibsP0 len dc bc count)).packetBitCount.toNat = 6 * len :=
    toNat_holdingPacket_count s.st hle
  have answered := dispatch_ibsP0 s.cfg (s.st.holdingPacket (.ibsP0 len dc bc count)) first hType (by omega)
  rw [holdingPacket_packetBits,
    terminal_holdingPacket s.st (.ibsP0 len dc bc count) hle rfl hCount hlt (by decide), hBranch, hDirect] at answered
  exact ⟨wf, rfl, ⟨Nat.le_of_succ_le hmin, hle⟩, answered⟩

/-- What `SYNC.P0` leads to (R176). -/
theorem packetLeads_syncP0 {dc : BitVec 1} {count : BitVec 113} (wf : (Instr.syncP0 len dc count).WellFormed) :
    PacketLeads s (.syncP0 len dc count)
      ⟨.sync, .undefined, count.setWidth 16, dc.setWidth 8, 0#32, 0#64⟩ 1#8 := by
  obtain ⟨hmin, hle, hlt⟩ : 2 ≤ len ∧ len ≤ 20 ∧ count.toNat < 2 ^ (6 * len - 7) := (tailFits_iff ..).1 wf
  obtain ⟨hType, hDirect, hCount⟩ := packetBitsOf_syncP0_fields len dc count
  have held : (s.st.holdingPacket (.syncP0 len dc count)).packetBitCount.toNat = 6 * len :=
    toNat_holdingPacket_count s.st hle
  have answered := dispatch_syncP0 s.cfg (s.st.holdingPacket (.syncP0 len dc count)) first hType (by omega)
  rw [holdingPacket_packetBits,
    terminal_holdingPacket s.st (.syncP0 len dc count) hle rfl hCount hlt (by decide), hDirect] at answered
  exact ⟨wf, rfl, ⟨Nat.le_of_succ_le hmin, hle⟩, answered⟩

/-- What `CORR.P0` leads to (R179). -/
theorem packetLeads_corrP0 {count : BitVec 108} (wf : (Instr.corrP0 len count).WellFormed) :
    PacketLeads s (.corrP0 len count) ⟨.correction, .undefined, count.setWidth 16, 0#8, 0#32, 0#64⟩ 1#8 := by
  obtain ⟨hmin, hle, hlt⟩ : 2 ≤ len ∧ len ≤ 20 ∧ count.toNat < 2 ^ (6 * len - 12) := (tailFits_iff ..).1 wf
  obtain ⟨hType, hEvent, hCount⟩ := packetBitsOf_corrP0_fields len count
  have held : (s.st.holdingPacket (.corrP0 len count)).packetBitCount.toNat = 6 * len :=
    toNat_holdingPacket_count s.st hle
  have answered := dispatch_corrP0 s.cfg (s.st.holdingPacket (.corrP0 len count)) first hType (by omega) hEvent
  rw [holdingPacket_packetBits,
    terminal_holdingPacket s.st (.corrP0 len count) hle rfl hCount hlt (by decide)] at answered
  exact ⟨wf, rfl, ⟨Nat.le_of_succ_le hmin, hle⟩, answered⟩

end

/-- What an address packet leads to (R171, R174, R177): the row is that of the kind, all three have one layout. -/
theorem packetLeads_address {s : State} {i : Instr} {len : Nat} {a : PacketBits} (hi : PacketInstr i len a)
    (fits : tailFits 1 len 0 a = true) (hk : s.st.message.kind = .indirectBranch ∨
      s.st.message.kind = .indirectBranchSync ∨ s.st.message.kind = .sync) (index : s.st.messagePacketIndex = 1#8) :
    PacketLeads s i { s.st.message with address := a.setWidth 32 } 2#8 := by
  obtain ⟨hmin, hle, hlt⟩ := (tailFits_iff ..).1 fits
  obtain ⟨wf, isPacket, rfl, rfl⟩ := hi
  have answered := dispatch_address s.cfg (s.st.holdingPacket i) hk index
  have whole : (packetBitsOf i).extractLsb' 0 120 = packetBitsOf i := by simp
  rw [holdingPacket_packetBits, terminal_holdingPacket s.st i hle (Nat.zero_add 32) whole hlt (by decide)] at answered
  exact ⟨wf, isPacket, ⟨hmin, hle⟩, answered⟩

/-- What a timestamp packet leads to (R172, R175, R178, R180). -/
theorem packetLeads_timestamp {s : State} {i : Instr} {len : Nat} {ts : PacketBits} (hi : PacketInstr i len ts)
    (fits : tailFits 1 len 0 ts = true) (stage : ((s.st.message.kind = .indirectBranch ∨
      s.st.message.kind = .indirectBranchSync ∨ s.st.message.kind = .sync) ∧ s.st.messagePacketIndex = 2#8) ∨
      (s.st.message.kind = .correction ∧ s.st.messagePacketIndex = 1#8)) :
    PacketLeads s i { s.st.message with timestamp := ts.setWidth 64 } (s.st.messagePacketIndex + 1#8) := by
  obtain ⟨hmin, hle, hlt⟩ := (tailFits_iff ..).1 fits
  obtain ⟨wf, isPacket, rfl, rfl⟩ := hi
  have answered := dispatch_timestamp s.cfg (s.st.holdingPacket i) stage
  have whole : (packetBitsOf i).extractLsb' 0 120 = packetBitsOf i := by simp
  rw [holdingPacket_packetBits, terminal_holdingPacket s.st i hle (Nat.zero_add 64) whole hlt (by decide)] at answered
  exact ⟨wf, isPacket, ⟨hmin, hle⟩, answered⟩

section
variable {s : State} {i0 i1 i2 : Instr} {m : Message} {l1 l2 : Nat} {a ts : PacketBits}

/-- A message of a kind with three packets may end after any of them: the later ones write the address and then the
timestamp of the first one's message (R181). -/
theorem afterMessage_upTo_three (hs : s.PacketStart) (h0 : PacketLeads s i0 m 1#8)
    (hk : m.kind = .indirectBranch ∨ m.kind = .indirectBranchSync ∨ m.kind = .sync)
    (h1 : PacketInstr i1 l1 a) (fits1 : tailFits 1 l1 0 a = true)
    (h2 : PacketInstr i2 l2 ts) (fits2 : tailFits 1 l2 0 ts = true) :
    s.afterMessage [i0] = s.interpreted m ∧
    s.afterMessage [i0, i1] = s.interpreted { m with address := a.setWidth 32 } ∧
    s.afterMessage [i0, i1, i2] = s.interpreted { m with address := a.setWidth 32, timestamp := ts.setWidth 64 } := by
  have active : m.kind ≠ .ignoring := by rcases hk with h | h | h <;> rw [h] <;> decide
  have start1 := packetStart_betweenPackets hs active 1#8
  have leads1 := packetLeads_address (s := s.betweenPackets m 1#8) h1 fits1 hk rfl
  have start2 := packetStart_betweenPackets hs (m := { m with address := a.setWidth 32 }) active 2#8
  have leads2 := packetLeads_timestamp (s := s.betweenPackets { m with address := a.setWidth 32 } 2#8) h2 fits2
    (.inl ⟨hk, rfl⟩)
  refine ⟨h0.afterMessage_last hs, ?_, ?_⟩
  · rw [h0.afterMessage_cons hs, leads1.afterMessage_last start1]
    rfl
  · rw [h0.afterMessage_cons hs, leads1.afterMessage_cons start1]
    exact leads2.afterMessage_last start2

/-- A Correction may end after either of its two packets (R181). -/
theorem afterMessage_upTo_two (hs : s.PacketStart) (h0 : PacketLeads s i0 m 1#8) (hk : m.kind = .correction)
    (h2 : PacketInstr i2 l2 ts) (fits2 : tailFits 1 l2 0 ts = true) :
    s.afterMessage [i0] = s.interpreted m ∧
    s.afterMessage [i0, i2] = s.interpreted { m with timestamp := ts.setWidth 64 } := by
  have active : m.kind ≠ .ignoring := by rw [hk]; decide
  have start := packetStart_betweenPackets hs active 1#8
  have leads := packetLeads_timestamp (s := s.betweenPackets m 1#8) h2 fits2 (.inr ⟨hk, rfl⟩)
  refine ⟨h0.afterMessage_last hs, ?_⟩
  rw [h0.afterMessage_cons hs, leads.afterMessage_last start]
  rfl

end

/-- The end of an IndirectBranch message (R202). -/
theorem interpreted_indirectBranch (s : State) {m : Message} (h : m.kind = .indirectBranch) :
    s.interpreted m = { s with
      ctx := ⟨s.ctx.address ^^^ m.address, s.ctx.valid⟩
      eventOut := s.eventOut ++ (if s.ctx.valid = true then
        [.branch (s.ctx.address + m.instructionCount.setWidth 32) (s.ctx.address ^^^ m.address) m.branchKind
          m.timestamp] else [])
      st := ⟨0#120, 0#8, { m with kind := .undetermined }, 0#8⟩ } := by
  rw [State.interpreted, interpMessage_indirectBranch m s.ctx h]
  rfl

/-- The end of an IndirectBranchSync message (R203). -/
theorem interpreted_indirectBranchSync (s : State) {m : Message} (h : m.kind = .indirectBranchSync) :
    s.interpreted m = { s with
      ctx := ⟨m.address, true⟩
      eventOut := s.eventOut ++ [.branch (s.ctx.address + m.instructionCount.setWidth 32) m.address m.branchKind
        m.timestamp]
      st := ⟨0#120, 0#8, { m with kind := .undetermined }, 0#8⟩ } := by
  rw [State.interpreted, interpMessage_indirectBranchSync m s.ctx h]
  rfl

/-- The end of a Sync message (R204). -/
theorem interpreted_sync (s : State) {m : Message} (h : m.kind = .sync) :
    s.interpreted m = { s with
      ctx := ⟨m.address, true⟩
      eventOut := s.eventOut ++ [.sync m.address m.timestamp]
      st := ⟨0#120, 0#8, { m with kind := .undetermined }, 0#8⟩ } := by
  rw [State.interpreted, interpMessage_sync m s.ctx h]

/-- The end of a Correction (R205). -/
theorem interpreted_correction (s : State) {m : Message} (h : m.kind = .correction) :
    s.interpreted m = { s with st := ⟨0#120, 0#8, { m with kind := .undetermined }, 0#8⟩ } := by
  rw [State.interpreted, interpMessage_correction m s.ctx h, List.append_nil]

end Sys2Proof.Machine

namespace Sys2Proof.Proofs

open Sys2Proof.Machine

/-- Settles O41: each row's packet leads to the fresh message of its kind. -/
theorem packetZeroRowsComplete : Obligations.PacketZeroRowsComplete := by
  intro s hs first
  exact ⟨fun _ _ _ wf => (packetLeads_ibP0 first wf).exec_eq hs,
    fun _ _ _ _ wf => (packetLeads_ibsP0 first wf).exec_eq hs,
    fun _ _ _ wf => (packetLeads_syncP0 first wf).exec_eq hs,
    fun _ _ wf => (packetLeads_corrP0 first wf).exec_eq hs⟩

/-- Settles O42: the three rows have one layout and one table. -/
theorem addressRowsComplete : Obligations.AddressRowsComplete := by
  intro s len a hs index wf
  have row {i : Instr} (hi : PacketInstr i len a) (hk : s.st.message.kind = .indirectBranch ∨
      s.st.message.kind = .indirectBranchSync ∨ s.st.message.kind = .sync) :
      exec i s = .next { s with st := { s.st with
        message := { s.st.message with address := a.setWidth 32 }, messagePacketIndex := 2#8 } } := by
    rw [(packetLeads_address hi wf hk index).exec_eq hs, betweenPackets_of_packetStart hs]
  exact ⟨fun hk => row ⟨wf, rfl, rfl, rfl⟩ (.inl hk), fun hk => row ⟨wf, rfl, rfl, rfl⟩ (.inr (.inl hk)),
    fun hk => row ⟨wf, rfl, rfl, rfl⟩ (.inr (.inr hk))⟩

/-- Settles O43: so have the four timestamp rows, and the index moves on by 1 from the one their context has. -/
theorem timestampRowsComplete : Obligations.TimestampRowsComplete := by
  intro s len ts hs wf
  have row {i : Instr} {x : U8} (hi : PacketInstr i len ts) (stage : ((s.st.message.kind = .indirectBranch ∨
      s.st.message.kind = .indirectBranchSync ∨ s.st.message.kind = .sync) ∧ s.st.messagePacketIndex = 2#8) ∨
      (s.st.message.kind = .correction ∧ s.st.messagePacketIndex = 1#8)) (moved : s.st.messagePacketIndex + 1#8 = x) :
      exec i s = .next { s with st := { s.st with
        message := { s.st.message with timestamp := ts.setWidth 64 }, messagePacketIndex := x } } := by
    rw [(packetLeads_timestamp hi wf stage).exec_eq hs, betweenPackets_of_packetStart hs, moved]
  refine ⟨fun hk index => ?_, fun hk index => ?_, fun hk index => ?_, fun hk index => ?_⟩
  · exact row ⟨wf, rfl, rfl, rfl⟩ (.inl ⟨.inl hk, index⟩) (by rw [index]; rfl)
  · exact row ⟨wf, rfl, rfl, rfl⟩ (.inl ⟨.inr (.inl hk), index⟩) (by rw [index]; rfl)
  · exact row ⟨wf, rfl, rfl, rfl⟩ (.inl ⟨.inr (.inr hk), index⟩) (by rw [index]; rfl)
  · exact row ⟨wf, rfl, rfl, rfl⟩ (.inr ⟨hk, index⟩) (by rw [index]; rfl)

/-- Settles O58: the first message leaves the block awaiting the second, and each adds its one event. -/
theorem roundTripFraming : Obligations.RoundTripFraming := by
  intro s l0 l1 l2 k0 k1 k2 dc bc dc' count count' a ts a' ts' hs first wf0 wf1 wf2 wf0' wf1' wf2' t
  have branch : s.afterMessage [.ibsP0 l0 dc bc count, .ibsP1 l1 a, .ibsP2 l2 ts] =
      s.interpreted ⟨.indirectBranchSync, branchCodeMap s.cfg bc, count.setWidth 16, dc.setWidth 8, a.setWidth 32,
        ts.setWidth 64⟩ := by
    obtain ⟨_, _, three⟩ := afterMessage_upTo_three (i1 := .ibsP1 l1 a) (i2 := .ibsP2 l2 ts) hs
      (packetLeads_ibsP0 first wf0) (.inr (.inl rfl)) ⟨wf1, rfl, rfl, rfl⟩ wf1 ⟨wf2, rfl, rfl, rfl⟩ wf2
    exact three
  have sync (m : Message) : (s.interpreted m).afterMessage [.syncP0 k0 dc' count', .syncP1 k1 a', .syncP2 k2 ts'] =
      (s.interpreted m).interpreted ⟨.sync, .undefined, count'.setWidth 16, dc'.setWidth 8, a'.setWidth 32,
        ts'.setWidth 64⟩ := by
    obtain ⟨_, _, three⟩ := afterMessage_upTo_three (i1 := .syncP1 k1 a') (i2 := .syncP2 k2 ts')
      (packetStart_interpreted hs m) (packetLeads_syncP0 rfl wf0') (.inr (.inr rfl)) ⟨wf1', rfl, rfl, rfl⟩ wf1'
      ⟨wf2', rfl, rfl, rfl⟩ wf2'
    exact three
  have both : t = (s.afterMessage [.ibsP0 l0 dc bc count, .ibsP1 l1 a, .ibsP2 l2 ts]).afterMessage
      [.syncP0 k0 dc' count', .syncP1 k1 a', .syncP2 k2 ts'] := runSymbols_append _ _ s
  rw [branch, sync] at both
  rw [both]
  refine ⟨?_, ?_, rfl, packetStart_interpreted (packetStart_interpreted hs _) _, rfl⟩
  · rw [interpreted_sync _ rfl, interpreted_indirectBranchSync s rfl]
    exact List.append_assoc _ _ _
  · rw [interpreted_sync _ rfl]

/-- Settles O59: packet by packet, then the interpretation of the kind. -/
theorem messagesOfEveryLengthAreInterpreted : Obligations.MessagesOfEveryLengthAreInterpreted := by
  intro s l0 l1 l2 a ts hs first wf1 wf2
  refine ⟨fun bc count wf0 => ?_, fun dc bc count wf0 => ?_, fun dc count wf0 => ?_, fun count wf0 => ?_⟩
  · obtain ⟨one, two, three⟩ := afterMessage_upTo_three (i1 := .ibP1 l1 a) (i2 := .ibP2 l2 ts) hs
      (packetLeads_ibP0 first wf0) (.inl rfl) ⟨wf1, rfl, rfl, rfl⟩ wf1 ⟨wf2, rfl, rfl, rfl⟩ wf2
    rw [one, two, three]
    exact ⟨interpreted_indirectBranch s rfl, interpreted_indirectBranch s rfl, interpreted_indirectBranch s rfl⟩
  · obtain ⟨one, two, three⟩ := afterMessage_upTo_three (i1 := .ibsP1 l1 a) (i2 := .ibsP2 l2 ts) hs
      (packetLeads_ibsP0 first wf0) (.inr (.inl rfl)) ⟨wf1, rfl, rfl, rfl⟩ wf1 ⟨wf2, rfl, rfl, rfl⟩ wf2
    rw [one, two, three]
    exact ⟨interpreted_indirectBranchSync s rfl, interpreted_indirectBranchSync s rfl,
      interpreted_indirectBranchSync s rfl⟩
  · obtain ⟨one, two, three⟩ := afterMessage_upTo_three (i1 := .syncP1 l1 a) (i2 := .syncP2 l2 ts) hs
      (packetLeads_syncP0 first wf0) (.inr (.inr rfl)) ⟨wf1, rfl, rfl, rfl⟩ wf1 ⟨wf2, rfl, rfl, rfl⟩ wf2
    rw [one, two, three]
    exact ⟨interpreted_sync s rfl, interpreted_sync s rfl, interpreted_sync s rfl⟩
  · obtain ⟨one, two⟩ := afterMessage_upTo_two (i2 := .corrP1 l2 ts) hs
      (packetLeads_corrP0 first wf0) rfl ⟨wf2, rfl, rfl, rfl⟩ wf2
    rw [one, two]
    exact ⟨interpreted_correction s rfl, interpreted_correction s rfl⟩

end Sys2Proof.Proofs
end
